-- ==== Sys2Proof/Word.lean ====
section
/-! DEFINITION. The types of the values that cross the block: command words, bit sequences, item lists. -/

namespace Sys2Proof

/-- A command word: 8 bits, the one command format (30_encoding.md R51). -/
abbrev CommandWord := BitVec 8

/-- A BitSequence: a list of bits with its length; position 0 stands first and is the MOST significant bit
(00_scope.md R10, 20_memory.md R32, R33). Only the elements 0 and 1 exist (40_bit_conversion.md R69, log 10). -/
abbrev Bits := List Bool

/-- A Payload: a list of naturals, in item order (20_memory.md R34, 30_encoding.md R49). -/
abbrev Items := List Nat

end Sys2Proof
end

