-- ==== Sys2Proof/Syntax.lean ====
section
/-! DEFINITION. The operations of the block (one constructor for each row of spec/opcode_table.json), and what the host
presents to ask for one: a command word with the operands beside it. -/

namespace Sys2Proof

/-- The twelve operations with the operands of 30_encoding.md R53, in the order written there. Every operand is a
natural, a bit sequence or an item list; only `seed` is signed (40_bit_conversion.md R71, 60_exceptions.md R117). -/
inductive Instr where
  | lfsrInit (g n : Nat) (seed : Int)          -- LFSR.INIT   41_lfsr.md R74
  | lfsrSet (v : Nat)                          -- LFSR.SET    R75 (the operand the spec writes s)
  | lfsrGet                                    -- LFSR.GET    R76
  | lfsrStep (stateFlag : Bool)                -- LFSR.STEP   R77, modifier s of 30_encoding.md R54
  | lfsrSteps (count : Nat)                    -- LFSR.STEPS  R78
  | divInit (g p : Nat)                        -- DIV.INIT    42_poly_divider.md R88
  | divDivide (d : Bits)                       -- DIV.DIVIDE  R89
  | divQuot (d : Bits)                         -- DIV.QUOT    R90
  | divRem (d : Bits)                          -- DIV.REM     R91
  | crcInit (g nitems : Nat)                   -- CRC.INIT    43_crc_codec.md R103
  | crcEncode (payload : Items) (w : Nat)      -- CRC.ENCODE  R104
  | crcDecode (received : Bits) (w : Nat)      -- CRC.DECODE  R105
  deriving DecidableEq, Repr

/-- The operands the host presents beside a command word, each under the name 30_encoding.md R53 gives it (the operand
`n` of `CRC.INIT` is the payload length `nitems`, 90_conflicts.md C7). An operation reads only the operands it takes
(R57); the others are at the default and are never read (log 5). -/
structure Operands where
  g        : Nat := 0
  n        : Nat := 0
  seed     : Int := 0
  s        : Nat := 0
  count    : Nat := 0
  p        : Nat := 0
  d        : Bits := []
  nitems   : Nat := 0
  payload  : Items := []
  received : Bits := []
  w        : Nat := 0
  deriving DecidableEq, Repr

/-- One request of the host (30_encoding.md R50). -/
structure Transaction where
  word     : CommandWord
  operands : Operands := {}
  deriving DecidableEq, Repr

/-- The mnemonic of an operation, as spec/opcode_table.json spells it (30_encoding.md R52). -/
def Instr.mnemonic : Instr → String
  | .lfsrInit _ _ _ => "LFSR.INIT"
  | .lfsrSet _      => "LFSR.SET"
  | .lfsrGet        => "LFSR.GET"
  | .lfsrStep _     => "LFSR.STEP"
  | .lfsrSteps _    => "LFSR.STEPS"
  | .divInit _ _    => "DIV.INIT"
  | .divDivide _    => "DIV.DIVIDE"
  | .divQuot _      => "DIV.QUOT"
  | .divRem _       => "DIV.REM"
  | .crcInit _ _    => "CRC.INIT"
  | .crcEncode _ _  => "CRC.ENCODE"
  | .crcDecode _ _  => "CRC.DECODE"

end Sys2Proof
end

