-- ==== Sys2Proof/Decode.lean ====
section
/-! DEFINITION. The command word: its fields, the decoder (total, rejecting by name), and the encoder
(30_encoding.md R51, R52, R54, R55, R60). -/

namespace Sys2Proof

/-- Why a command word is illegal (30_encoding.md R55): the three causes, each by name. All three end in the one fault
`IllegalCommand` (60_exceptions.md R120), so their order has no effect (log 20). -/
inductive Reject where
  | reservedBits      -- cmd[7:5] ≠ 000
  | reservedOp        -- op is 0xC, 0xD, 0xE or 0xF
  | strayStateFlag    -- s = 1 with op ≠ 0x3
  deriving DecidableEq, Repr

/-- `op = cmd[3:0]` (30_encoding.md R51). -/
def opField (w : CommandWord) : Nat := w.toNat % 16

/-- `s = cmd[4]`. -/
def stateFlagField (w : CommandWord) : Bool := w.toNat.testBit 4

/-- `rsv = cmd[7:5]`. -/
def reservedField (w : CommandWord) : Nat := w.toNat / 32

/-- The operation map of 30_encoding.md R52, each operation with the operands R53 gives it. -/
def operation (op : Nat) (stateFlag : Bool) (o : Operands) : Option Instr :=
  match op with
  | 0x0 => some (.lfsrInit o.g o.n o.seed)
  | 0x1 => some (.lfsrSet o.s)
  | 0x2 => some .lfsrGet
  | 0x3 => some (.lfsrStep stateFlag)
  | 0x4 => some (.lfsrSteps o.count)
  | 0x5 => some (.divInit o.g o.p)
  | 0x6 => some (.divDivide o.d)
  | 0x7 => some (.divQuot o.d)
  | 0x8 => some (.divRem o.d)
  | 0x9 => some (.crcInit o.g o.nitems)
  | 0xA => some (.crcEncode o.payload o.w)
  | 0xB => some (.crcDecode o.received o.w)
  | _   => none

/-- The decoder. A word is illegal when a reserved bit is set, when `op` is reserved, or when `s = 1` with an operation
other than `LFSR.STEP` (30_encoding.md R55). -/
def decode (t : Transaction) : Except Reject Instr :=
  if reservedField t.word ≠ 0 then .error .reservedBits
  else
    match operation (opField t.word) (stateFlagField t.word) t.operands with
    | none   => .error .reservedOp
    | some i =>
      if stateFlagField t.word ∧ opField t.word ≠ 0x3 then .error .strayStateFlag else .ok i

/-- The encoder: the command word of 30_encoding.md R60, with the operands the operation takes (R53). -/
def encode : Instr → Transaction
  | .lfsrInit g n seed     => { word := 0x00#8, operands := { g := g, n := n, seed := seed } }
  | .lfsrSet v             => { word := 0x01#8, operands := { s := v } }
  | .lfsrGet               => { word := 0x02#8 }
  | .lfsrStep false        => { word := 0x03#8 }
  | .lfsrStep true         => { word := 0x13#8 }
  | .lfsrSteps count       => { word := 0x04#8, operands := { count := count } }
  | .divInit g p           => { word := 0x05#8, operands := { g := g, p := p } }
  | .divDivide d           => { word := 0x06#8, operands := { d := d } }
  | .divQuot d             => { word := 0x07#8, operands := { d := d } }
  | .divRem d              => { word := 0x08#8, operands := { d := d } }
  | .crcInit g nitems      => { word := 0x09#8, operands := { g := g, nitems := nitems } }
  | .crcEncode payload w   => { word := 0x0A#8, operands := { payload := payload, w := w } }
  | .crcDecode received w  => { word := 0x0B#8, operands := { received := received, w := w } }

/-- A row of spec/opcode_table.json: a word belongs to it when its bits under the mask are the match. -/
structure OpcodeRow where
  mnemonic : String
  matchVal : CommandWord
  mask     : CommandWord
  deriving DecidableEq, Repr

/-- Match and mask of each row (30_encoding.md R60): mask `0xFF` but for `LFSR.STEP`, whose bit 4 is the field `s`. -/
def opcodeTable : List OpcodeRow :=
  [ ⟨"LFSR.INIT", 0x00#8, 0xFF#8⟩, ⟨"LFSR.SET", 0x01#8, 0xFF#8⟩, ⟨"LFSR.GET", 0x02#8, 0xFF#8⟩,
    ⟨"LFSR.STEP", 0x03#8, 0xEF#8⟩, ⟨"LFSR.STEPS", 0x04#8, 0xFF#8⟩, ⟨"DIV.INIT", 0x05#8, 0xFF#8⟩,
    ⟨"DIV.DIVIDE", 0x06#8, 0xFF#8⟩, ⟨"DIV.QUOT", 0x07#8, 0xFF#8⟩, ⟨"DIV.REM", 0x08#8, 0xFF#8⟩,
    ⟨"CRC.INIT", 0x09#8, 0xFF#8⟩, ⟨"CRC.ENCODE", 0x0A#8, 0xFF#8⟩, ⟨"CRC.DECODE", 0x0B#8, 0xFF#8⟩ ]

/-- The word is one of the row's. -/
def OpcodeRow.covers (r : OpcodeRow) (w : CommandWord) : Bool := w &&& r.mask == r.matchVal

/-- The transaction whose command word is `w` (of which the table gives `nbits` bits) and whose operands are all zero or
empty: what the host of this package asks the decoder and the machine about. -/
def transactionOfWord (nbits w : Nat) : Transaction := { word := BitVec.ofNat 8 (w % 2 ^ nbits) }

/-- The operation the decoder reads from that transaction. -/
def decodeTableWord (nbits w : Nat) : Option Instr := (decode (transactionOfWord nbits w)).toOption

end Sys2Proof
end

