-- ==== Sys2Proof/Config.lean ====
section
/-! DEFINITION. What is fixed for one implementation: the three switches of 00_scope.md R8 and the two open bounds of
R7. The spec's own values of them are `Sys2Proof.Machine.switches` (Machine/Switches.lean). There is no free value here:
the spec leaves no result of any operation open (70_reset_and_hazards.md section 3). -/

namespace Sys2Proof

/-- `DIV_ORDER` (00_scope.md R8; 90_conflicts.md C1): the order of the two actions of a divider iteration. -/
inductive DivOrder where
  | clockThenInject   -- the spec's value, 42_poly_divider.md R92
  | injectThenClock   -- the literal text of the source, R100
  deriving DecidableEq, Repr

/-- `Q_TAP` (00_scope.md R8; 90_conflicts.md C2): which bit a divider iteration offers as quotient bit. -/
inductive QTap where
  | preTop    -- the spec's value, 42_poly_divider.md R93
  | nextTop   -- R101
  deriving DecidableEq, Repr

/-- `WIDE_STATE` (00_scope.md R8): what happens to a state wider than the register. -/
inductive WideState where
  | refuse         -- the spec's value: `BadParameter`, 41_lfsr.md R74, R75
  | keepVerbatim   -- the software's behaviour, R85
  deriving DecidableEq, Repr

/-- One implementation. `nmax` and `lmax` are the OPEN bounds of 00_scope.md R7 (`none`: unbounded). -/
structure Config where
  divOrder  : DivOrder
  qTap      : QTap
  wideState : WideState
  nmax      : Option Nat
  lmax      : Option Nat
  deriving DecidableEq, Repr

end Sys2Proof
end

