-- ==== Sys2Proof/Machine/Operands.lean ====
section
/-! DEFINITION. The forms an operand takes inside an operation: integer to bit sequence and back (40_bit_conversion.md
R67 to R69), the two sequence primitives of 00_scope.md R11, and the bit form of a payload (20_memory.md R34). -/

namespace Sys2Proof.Machine

/-- `bitlen(v)` (00_scope.md R9): the number of bits of `v` without leading zeros. -/
def bitlen (v : Nat) : Nat := if v = 0 then 0 else v.log2 + 1

/-- `to_bits(value, length)` (40_bit_conversion.md R67): position `i` holds the bit of weight `2^(length − 1 − i)`; bits
of weight `2^length` and above are dropped. -/
def toBits (value length : Nat) : Bits :=
  (List.range length).map fun i => value.testBit (length - 1 - i)

/-- `to_bits(value)` without a length (40_bit_conversion.md R68); no operation of the block uses this form. -/
def toBitsMinimal (value : Nat) : Bits := toBits value (max 1 (bitlen value))

/-- `from_bits(B)` (40_bit_conversion.md R69): the sum of `B[i]·2^(len(B) − 1 − i)`, 0 for the empty sequence. -/
def fromBits : Bits → Nat
  | []     => 0
  | b :: B => b.toNat * 2 ^ B.length + fromBits B

/-- `S[i]`, the element at a position (00_scope.md R10). Every position the rules read exists in the sequence; where an
unreachable state makes one not exist, it reads as 0 (log 19). -/
def bitAt (S : Bits) (i : Nat) : Bool := S.getD i false

/-- `zeros(k)` (00_scope.md R10). -/
def zeros (k : Nat) : Bits := List.replicate k false

/-- `MemRead(S, i, k) = S[i..i+k)` (00_scope.md R11). -/
def memRead (S : Bits) (i k : Nat) : Bits := (S.drop i).take k

/-- `MemWrite(S, i, B)`: `S` with `S[i..i+len(B))` replaced by `B` (00_scope.md R11). -/
def memWrite (S : Bits) (i : Nat) (B : Bits) : Bits := S.take i ++ B ++ S.drop (i + B.length)

/-- `flatten(payload, W)` (20_memory.md R34): the items in order, each MSB-first in `W` bits. -/
def flatten (payload : Items) (w : Nat) : Bits := payload.flatMap fun v => toBits v w

/-- The first `nitems` groups of `W` bits of a received sequence, each read MSB-first (43_crc_codec.md R105 step 2). -/
def unflatten (received : Bits) (w nitems : Nat) : Items :=
  (List.range nitems).map fun k => fromBits (memRead received (k * w) w)

/-- Some item does not fit `W` bits (43_crc_codec.md R104, R112). -/
def someItemTooWide (payload : Items) (w : Nat) : Bool := payload.any fun v => decide (2 ^ w ≤ v)

end Sys2Proof.Machine
end

