-- ==== Sys2Proof/Machine/Flags.lean ====
section
/-! DEFINITION. The one-bit values that play the part of flags (10_state.md R25). None is stored: the block has no flags
register. -/

namespace Sys2Proof.Machine

/-- The feedback bit of an LFSR step: the most significant bit of the register BEFORE the step, `S[0]` for
`S = to_bits(s, n)` (41_lfsr.md R79 step 3). -/
def feedbackBit (S : Bits) : Bool := bitAt S 0

/-- The output bit of an LFSR step: the most significant bit of the register AFTER the step (41_lfsr.md R79 step 6,
R84). -/
def outputBit (T : Bits) : Bool := bitAt T 0

/-- `top`: the most significant bit of a divider's `p`-bit register (42_poly_divider.md R89 step 1). -/
def topBit (r p : Nat) : Bool := r.testBit (p - 1)

/-- The quotient bit a divider iteration offers: `top`, sampled before the iteration (42_poly_divider.md R93), or the
most significant bit of the register after it (R101). -/
def quotientCandidate (tap : QTap) (before after p : Nat) : Bool :=
  match tap with
  | .preTop  => topBit before p
  | .nextTop => topBit after p

/-- The error-detected condition of a decode (10_state.md R25 (c), 43_crc_codec.md R105): ordinary output data, not a
fault (60_exceptions.md R123). -/
def errorDetected (syndrome : Nat) : Bool := syndrome != 0

end Sys2Proof.Machine
end

