-- ==== Sys2Proof/Machine/State.lean ====
section
/-! DEFINITION. The machine's state as plain data: the registers of the three slots (10_state.md), and what stands at the
host interface. -/

namespace Sys2Proof.Machine

/-- Slot `L`, the stand-alone LFSR (10_state.md R15). -/
structure LfsrSlot where
  valid : Bool     -- L.VALID
  n     : Nat      -- L.N: degree of the connection polynomial, width of L.R
  g     : Nat      -- L.G: the connection polynomial, L.N + 1 bits (R17)
  r     : Nat      -- L.R: the RegisterState, L.N bits (R16)
  deriving DecidableEq, Repr

/-- Slot `D`, the PolyDivider with the LFSR it owns (10_state.md R18). -/
structure DivSlot where
  valid : Bool     -- D.VALID
  p     : Nat      -- D.P: degree of the divisor, width of D.R
  g     : Nat      -- D.G: the divisor polynomial, D.P + 1 bits
  r     : Nat      -- D.R: the owned LFSR's register, D.P bits (R19)
  deriving DecidableEq, Repr

/-- Slot `C`, the CRC Codec with its divider and that divider's LFSR (10_state.md R20). -/
structure CrcSlot where
  valid  : Bool    -- C.VALID
  g      : Nat     -- C.G: the generator polynomial, C.CRCLEN bits
  nitems : Nat     -- C.NITEMS: payload length in items
  crcLen : Nat     -- C.CRCLEN: bit-length of the generator
  r      : Nat     -- C.R: the owned register, C.CRCLEN - 1 bits (R21)
  deriving DecidableEq, Repr

/-- The names of the slots (10_state.md R13), the value `NotConfigured` records (60_exceptions.md R116). -/
inductive SlotName where
  | L | D | C
  deriving DecidableEq, Repr

/-- The names of the parameters `BadParameter` records (60_exceptions.md R116, R122). -/
inductive ParamName where
  | n | seed | s | p | g
  deriving DecidableEq, Repr

/-- The causes `MalformedInput` records (60_exceptions.md R116, R119). `overLength` is the cause of decision D23
(92_eei_decisions.md) for an implementation with a bound `LMAX`; at the spec's configuration nothing raises it (log 7). -/
inductive MalformedCause where
  | itemWidth        -- W = 0
  | payloadLength    -- len(payload) ≠ C.NITEMS
  | itemValue        -- some item ≥ 2^W
  | receivedLength   -- len(received) ≠ C.NITEMS·W + C.CRCLEN − 1
  | emptyDividend    -- len(d) = 0
  | overLength       -- longer than LMAX
  deriving DecidableEq, Repr

/-- The five fault statuses of 60_exceptions.md R116, each with the value it records. A fault is the status an operation
returns: the block keeps its registers and goes on (R118, R126), so it is NOT an outcome that stops the machine (log 4). -/
inductive FaultStatus where
  | invalidSeed (seed : Int)
  | malformedInput (cause : MalformedCause)
  | illegalCommand (word : CommandWord)
  | notConfigured (slot : SlotName)
  | badParameter (param : ParamName)
  deriving DecidableEq, Repr

/-- A result of an operation, with its type (30_encoding.md R53). -/
inductive Value where
  | nat (v : Nat)
  | bit (b : Bool)
  | bits (S : Bits)
  | items (v : Items)
  deriving DecidableEq, Repr

/-- What the block returns for one operation: `OK` with the results in the order of 30_encoding.md R53, or a fault
status with its recorded value and no result (60_exceptions.md R116, R118). -/
inductive Response where
  | ok (results : List Value)
  | fault (f : FaultStatus)
  deriving DecidableEq, Repr

/-- THE BLOCK'S OWN STATE: the registers of its three slots (10_state.md R13), and nothing else. The operation stream and its
operands, the input sequences, the output stream and the switches are no part of it (R27), nor is the status of the last
operation (R26): an operation takes and gives them as parameters (`transact`). -/
structure Block where
  l : LfsrSlot
  d : DivSlot
  c : CrcSlot
  deriving DecidableEq, Repr

/-- What the block gives for one transaction: its registers afterwards, the response to the host, and the bits it emits to
the output stream, in order (30_encoding.md R50; 00_scope.md R11). -/
structure Effect where
  block    : Block
  response : Response
  emitted  : Bits
  deriving DecidableEq, Repr

/-- The closed system that takes steps of its own: the block, and the host's side of the interface beside it. A step here
is a function of a state alone, so what the host presents and what it collects are lists it keeps (log 1); the block reads
none of them. -/
structure State extends Block where
  pending   : List Transaction   -- issued by the host, not yet taken, oldest first
  responses : List Response      -- returned to the host, oldest first
  sink      : List Bool          -- the output stream of LFSR.STEPS, oldest bit first
  deriving DecidableEq, Repr

/-- The reasons a step can stop the machine with a fault. NONE: every fault the spec describes is a status returned to
the host after which the block goes on (60_exceptions.md R118, R127), every operation ends (70_reset_and_hazards.md R147),
and no result is undefined (its section 3). So no definition raises one, and there is nothing to call safe or unsafe
(log 4). The spec's five faults are `FaultStatus`. -/
inductive Fault where
  deriving DecidableEq, Repr

/-- The reasons a step can be refused a meaning. -/
inductive Refusal where
  /-- Raised by `exec` for an operation that has no meaning in the model yet; at present no arm of `exec` raises it.
  Safe: the model stops where the hardware goes on. -/
  | notModelled (mnemonic : String)
  deriving DecidableEq, Repr

/-- What a meaning answers. -/
abbrev Outcome := Host.Outcome State Fault Refusal

/-- Power-on (10_state.md R30, 70_reset_and_hazards.md R132): the three VALID bits are 0. Every other register is
unspecified and unobservable there; the model's value for each is 0 (DESIGN CHOICE, log 3). Nothing has crossed the host
interface (log 1). -/
def State.reset : State where
  l := { valid := false, n := 0, g := 0, r := 0 }
  d := { valid := false, p := 0, g := 0, r := 0 }
  c := { valid := false, g := 0, nitems := 0, crcLen := 0, r := 0 }
  pending := []
  responses := []
  sink := []

end Sys2Proof.Machine
end

