-- ==== Sys2Proof/Machine/Switches.lean ====
section
/-! DEFINITION. The configuration this model takes, and the two bounds as tests. -/

namespace Sys2Proof.Machine

/-- The spec's values of the switches (00_scope.md R8; 92_eei_decisions.md D7, D10, D11; log 6) and of the open bounds
(R7, D23: unbounded unless given; log 7). -/
def switches : Config where
  divOrder  := .clockThenInject
  qTap      := .preTop
  wideState := .refuse
  nmax      := none
  lmax      := none

/-- A register width beyond `NMAX`, where the implementation has that bound (92_eei_decisions.md D23). -/
def overNmax (cfg : Config) (width : Nat) : Bool :=
  match cfg.nmax with
  | none   => false
  | some m => decide (m < width)

/-- A sequence length or step count beyond `LMAX`, where the implementation has that bound (92_eei_decisions.md D23);
which sequences are tested is the model's choice (log 7). -/
def overLmax (cfg : Config) (length : Nat) : Bool :=
  match cfg.lmax with
  | none   => false
  | some m => decide (m < length)

/-- A value that a register of `width` bits cannot hold, where the implementation refuses such a value
(41_lfsr.md R74, R75, R85; 92_eei_decisions.md D7). -/
def tooWide (cfg : Config) (value width : Nat) : Bool :=
  match cfg.wideState with
  | .refuse       => decide (2 ^ width ≤ value)
  | .keepVerbatim => false

end Sys2Proof.Machine
end

