-- ==== Sys2Proof/Machine/Ops.lean ====
section
/-! DEFINITION. The operations the meanings share: ending an operation, taking a fault, writing a slot, the LFSR step and
the division loop. Each is a function of the block's registers and of what the host presents (10_state.md R27). -/

namespace Sys2Proof.Machine

/-! ### Ending an operation -/

/-- End an operation with status `OK` and its results (60_exceptions.md R116), with the registers `k`, nothing emitted. -/
def complete (results : List Value) (k : Block) : Effect :=
  { block := k, response := .ok results, emitted := [] }

/-- TAKING A FAULT, `raise X(info)` (60_exceptions.md R118, R126): the operation ends at once; the status and its recorded
value go to the host; no register of any slot changes, no result is given, nothing is appended to the output stream.
Nothing is saved, no mode changes and control goes nowhere, so there is no return operation beside it (R127): the next
operation runs as if the failed one had not been issued. -/
def raise (f : FaultStatus) (k : Block) : Effect :=
  { block := k, response := .fault f, emitted := [] }

/-! ### The host's side -/

/-- The host collects one response (30_encoding.md R50). -/
def respond (r : Response) (s : State) : State := { s with responses := s.responses ++ [r] }

/-- `emit(sink, ·)` for a run of bits: they are appended in order, and what the stream held is kept in front
(00_scope.md R11, 20_memory.md R46). -/
def State.emit (s : State) (out : Bits) : State := { s with sink := s.sink ++ out }

/-- The block has carried out one operation: it holds its new registers, and the host has collected the response and the
emitted bits. -/
def answer (e : Effect) (s : State) : Outcome :=
  .next (respond e.response (State.emit { s with toBlock := e.block } e.emitted))

/-- The status code of a response (60_exceptions.md R116). -/
def Response.statusCode : Response → Nat
  | .ok _                        => 0
  | .fault (.invalidSeed _)      => 1
  | .fault (.malformedInput _)   => 2
  | .fault (.illegalCommand _)   => 3
  | .fault (.notConfigured _)    => 4
  | .fault (.badParameter _)     => 5

/-! ### Registers -/

/-- The VALID bit of a slot (10_state.md R15, R18, R20). -/
def Block.slotValid (k : Block) : SlotName → Bool
  | .L => k.l.valid
  | .D => k.d.valid
  | .C => k.c.valid

/-- Write slot `L`. -/
def Block.setL (k : Block) (x : LfsrSlot) : Block := { k with l := x }

/-- Write slot `D`. -/
def Block.setD (k : Block) (x : DivSlot) : Block := { k with d := x }

/-- Write slot `C`. -/
def Block.setC (k : Block) (x : CrcSlot) : Block := { k with c := x }

/-- `L.R <- v`. -/
def Block.setLR (k : Block) (v : Nat) : Block := k.setL { k.l with r := v }

/-- `D.R <- v`. -/
def Block.setDR (k : Block) (v : Nat) : Block := k.setD { k.d with r := v }

/-- `C.R <- v`. -/
def Block.setCR (k : Block) (v : Nat) : Block := k.setC { k.c with r := v }

/-- Run `e` on a configured slot, or take `NotConfigured` (60_exceptions.md R121). -/
def ifConfigured (slot : SlotName) (k : Block) (e : Effect) : Effect :=
  if k.slotValid slot then e else raise (.notConfigured slot) k

/-! ### The LFSR step (41_lfsr.md R79) -/

/-- `lfsr_step(s, g, n)`, position by position as the rule writes it: the output bit and the new state. The tap loop runs
over positions `0 .. n−2` (90_conflicts.md C4; log 11); each pass writes its own position from the PRE-shift state, so
the loop is one value for each position. Only the low `n` bits of `s` are read (R85). -/
def lfsrStep (s g n : Nat) : Bool × Nat :=
  let S  := toBits s n
  let G  := toBits g (n + 1)
  let T  := toBits (2 * s) n
  let fb := feedbackBit S
  let T' := (List.range n).map fun i =>
    if i = n - 1 then fb
    else if bitAt G (i + 1) then bitAt S (i + 1) ^^ fb
    else bitAt T i
  (outputBit T', fromBits T')

/-- `count` steps in a row: the output bits in order and the state at the end (41_lfsr.md R78). -/
def lfsrRun : (count s g n : Nat) → Bits × Nat
  | 0, s, _, _ => ([], s)
  | count + 1, s, g, n =>
    let (out, ns) := lfsrStep s g n
    let (outs, last) := lfsrRun count ns g n
    (out :: outs, last)

/-! ### The divider (42_poly_divider.md) -/

/-- The register with bit 0 replaced: `r − r.bit(0) + b` (42_poly_divider.md R92). -/
def injectBit0 (r : Nat) (b : Bool) : Nat := r - r % 2 + b.toNat

/-- `div_iter(r, g, p, feedback)`: clock then inject (42_poly_divider.md R92), or inject then clock (R100). -/
def divIter (order : DivOrder) (r g p : Nat) (feedback : Bool) : Nat :=
  match order with
  | .clockThenInject => injectBit0 (lfsrStep r g p).2 feedback
  | .injectThenClock => (lfsrStep (injectBit0 r feedback) g p).2

/-- The register after one iteration on dividend bit `b`, with `feedback = top XOR b` (42_poly_divider.md R89 steps 1, 2,
3 and 4). -/
def divStep (cfg : Config) (g p r : Nat) (b : Bool) : Nat :=
  divIter cfg.divOrder r g p (topBit r p ^^ b)

/-- The division loop from register `r` over the rest of the dividend: the quotient bits and the register at the end
(42_poly_divider.md R89). The last iteration's candidate is not kept. -/
def divLoop (cfg : Config) (g p : Nat) : Nat → Bits → Bits × Nat
  | r, []     => ([], r)
  | r, b :: d =>
    let r' := divStep cfg g p r b
    let (Q, last) := divLoop cfg g p r' d
    (if d.isEmpty then [] else quotientCandidate cfg.qTap r r' p :: Q, last)

/-- The whole division: "reset the register to 0", then the loop (42_poly_divider.md R89, 70_reset_and_hazards.md R134). -/
def division (cfg : Config) (g p : Nat) (d : Bits) : Bits × Nat := divLoop cfg g p 0 d

/-- The shared body of the three division operations (42_poly_divider.md R89, R90, R91): the same tests, the same
register effect; `results` says what of the quotient and the remainder is returned. Of the sequences of a division only the
dividend is tested against `LMAX`, not the `p`-bit remainder: the spec does not say which are (DESIGN CHOICE, log 7). -/
def divideThen (cfg : Config) (d : Bits) (results : Bits → Bits → List Value) (k : Block) : Effect :=
  ifConfigured .D k <|
    if d = [] then raise (.malformedInput .emptyDividend) k
    else if overLmax cfg d.length then raise (.malformedInput .overLength) k
    else
      let (Q, r) := division cfg k.d.g k.d.p d
      complete (results Q (toBits r k.d.p)) (k.setDR r)

/-- `crc_divide_remainder(B)` on the codec's registers (43_crc_codec.md R102): the final `C.R`; the quotient is thrown
away. -/
def crcDivideRemainder (cfg : Config) (c : CrcSlot) (B : Bits) : Nat :=
  (division cfg c.g (c.crcLen - 1) B).2

end Sys2Proof.Machine
end

