-- ==== Sys2Proof/Machine/Crc.lean ====
section
/-! DEFINITION. The operations of the CRC Codec unit (43_crc_codec.md R103 to R105), on slot `C`. `op…` is what the block
does, with the configuration, the operands and the registers as parameters (10_state.md R27); `exec…` is that at the
spec's configuration (`switches`), with the host beside it. -/

namespace Sys2Proof.Machine

/-- `CRC.INIT g, n` (43_crc_codec.md R103). -/
def opCrcInit (cfg : Config) (g nitems : Nat) (k : Block) : Effect :=
  if g < 2 then raise (.badParameter .g) k
  else if overNmax cfg (bitlen g - 1) then raise (.badParameter .g) k
  else complete [] (k.setC { valid := true, g := g, nitems := nitems, crcLen := bitlen g, r := 0 })

/-- The meaning of `CRC.INIT`. -/
def execCrcInit (g nitems : Nat) (s : State) : Outcome := answer (opCrcInit switches g nitems s.toBlock) s

/-- `CRC.ENCODE payload, W` (43_crc_codec.md R104): flatten, pad with `p = C.CRCLEN − 1` zeros, divide, overwrite the
trailing `p` bits with the remainder. -/
def opCrcEncode (cfg : Config) (payload : Items) (w : Nat) (k : Block) : Effect :=
  ifConfigured .C k <|
    if w = 0 then raise (.malformedInput .itemWidth) k
    else if payload.length ≠ k.c.nitems then raise (.malformedInput .payloadLength) k
    else if someItemTooWide payload w then raise (.malformedInput .itemValue) k
    else if overLmax cfg (k.c.nitems * w + (k.c.crcLen - 1)) then raise (.malformedInput .overLength) k
    else
      let p      := k.c.crcLen - 1
      let padded := flatten payload w ++ zeros p
      let rem    := crcDivideRemainder cfg k.c padded
      complete [.bits (memWrite padded (k.c.nitems * w) (toBits rem p))] (k.setCR rem)

/-- The meaning of `CRC.ENCODE`. -/
def execCrcEncode (payload : Items) (w : Nat) (s : State) : Outcome := answer (opCrcEncode switches payload w s.toBlock) s

/-- `CRC.DECODE received, W` (43_crc_codec.md R105): the syndrome is the remainder of the ENTIRE sequence; the payload is
the literal bits, whatever the syndrome (R110). -/
def opCrcDecode (cfg : Config) (received : Bits) (w : Nat) (k : Block) : Effect :=
  ifConfigured .C k <|
    if w = 0 then raise (.malformedInput .itemWidth) k
    else if received.length ≠ k.c.nitems * w + (k.c.crcLen - 1) then raise (.malformedInput .receivedLength) k
    else if overLmax cfg received.length then raise (.malformedInput .overLength) k
    else
      let syndrome := crcDivideRemainder cfg k.c received
      complete [.items (unflatten received w k.c.nitems), .nat syndrome] (k.setCR syndrome)

/-- The meaning of `CRC.DECODE`. -/
def execCrcDecode (received : Bits) (w : Nat) (s : State) : Outcome := answer (opCrcDecode switches received w s.toBlock) s

end Sys2Proof.Machine
end

