-- ==== Sys2Proof/Machine/Div.lean ====
section
/-! DEFINITION. The operations of the PolyDivider unit (42_poly_divider.md R88 to R91), on slot `D`. `op…` is what the block
does, with the configuration, the operands and the registers as parameters (10_state.md R27); `exec…` is that at the
spec's configuration (`switches`), with the host beside it. -/

namespace Sys2Proof.Machine

/-- `DIV.INIT g, p` (42_poly_divider.md R88). -/
def opDivInit (cfg : Config) (g p : Nat) (k : Block) : Effect :=
  if p = 0 then raise (.badParameter .p) k
  else if overNmax cfg p then raise (.badParameter .p) k
  else complete [] (k.setD { valid := true, p := p, g := g % 2 ^ (p + 1), r := 0 })

/-- The meaning of `DIV.INIT`. -/
def execDivInit (g p : Nat) (s : State) : Outcome := answer (opDivInit switches g p s.toBlock) s

/-- `DIV.DIVIDE d` (42_poly_divider.md R89). -/
def opDivDivide (cfg : Config) (d : Bits) (k : Block) : Effect :=
  divideThen cfg d (fun Q Rm => [.bits Q, .bits Rm]) k

/-- The meaning of `DIV.DIVIDE`. -/
def execDivDivide (d : Bits) (s : State) : Outcome := answer (opDivDivide switches d s.toBlock) s

/-- `DIV.QUOT d` (42_poly_divider.md R90): the quotient as an integer. -/
def opDivQuot (cfg : Config) (d : Bits) (k : Block) : Effect :=
  divideThen cfg d (fun Q _ => [.nat (fromBits Q)]) k

/-- The meaning of `DIV.QUOT`. -/
def execDivQuot (d : Bits) (s : State) : Outcome := answer (opDivQuot switches d s.toBlock) s

/-- `DIV.REM d` (42_poly_divider.md R91): the remainder as an integer. -/
def opDivRem (cfg : Config) (d : Bits) (k : Block) : Effect :=
  divideThen cfg d (fun _ Rm => [.nat (fromBits Rm)]) k

/-- The meaning of `DIV.REM`. -/
def execDivRem (d : Bits) (s : State) : Outcome := answer (opDivRem switches d s.toBlock) s

end Sys2Proof.Machine
end

