-- ==== Sys2Proof/Machine/Lfsr.lean ====
section
/-! DEFINITION. The operations of the LFSR unit (41_lfsr.md R74 to R78), on slot `L`. `op…` is what the block does, with the
configuration, the operands and the registers as parameters (10_state.md R27); `exec…` is that at the spec's configuration
(`switches`), with the host beside it. -/

namespace Sys2Proof.Machine

/-- `LFSR.INIT g, n, seed` (41_lfsr.md R74; 60_exceptions.md R124 for the order of the tests). -/
def opLfsrInit (cfg : Config) (g n : Nat) (seed : Int) (k : Block) : Effect :=
  if seed < 0 then raise (.invalidSeed seed) k
  else if n = 0 then raise (.badParameter .n) k
  else if overNmax cfg n then raise (.badParameter .n) k
  else if tooWide cfg seed.toNat n then raise (.badParameter .seed) k
  else complete [] (k.setL { valid := true, n := n, g := g % 2 ^ (n + 1), r := seed.toNat })

/-- The meaning of `LFSR.INIT`. -/
def execLfsrInit (g n : Nat) (seed : Int) (s : State) : Outcome := answer (opLfsrInit switches g n seed s.toBlock) s

/-- `LFSR.SET s` (41_lfsr.md R75). -/
def opLfsrSet (cfg : Config) (v : Nat) (k : Block) : Effect :=
  ifConfigured .L k <|
    if tooWide cfg v k.l.n then raise (.badParameter .s) k
    else complete [] (k.setLR v)

/-- The meaning of `LFSR.SET`. -/
def execLfsrSet (v : Nat) (s : State) : Outcome := answer (opLfsrSet switches v s.toBlock) s

/-- `LFSR.GET` (41_lfsr.md R76). -/
def opLfsrGet (k : Block) : Effect :=
  ifConfigured .L k <| complete [.nat k.l.r] k

/-- The meaning of `LFSR.GET`. -/
def execLfsrGet (s : State) : Outcome := answer (opLfsrGet s.toBlock) s

/-- `LFSR.STEP` with the modifier `s` (41_lfsr.md R77; 30_encoding.md R54: the state change is the same either way). -/
def opLfsrStep (stateFlag : Bool) (k : Block) : Effect :=
  ifConfigured .L k <|
    let (out, ns) := lfsrStep k.l.r k.l.g k.l.n
    complete (if stateFlag then [.bit out, .nat ns] else [.bit out]) (k.setLR ns)

/-- The meaning of `LFSR.STEP`. -/
def execLfsrStep (stateFlag : Bool) (s : State) : Outcome := answer (opLfsrStep stateFlag s.toBlock) s

/-- `LFSR.STEPS count` (41_lfsr.md R78): the output bits are emitted; nothing else is returned. -/
def opLfsrSteps (cfg : Config) (count : Nat) (k : Block) : Effect :=
  ifConfigured .L k <|
    if overLmax cfg count then raise (.malformedInput .overLength) k
    else
      let (outs, last) := lfsrRun count k.l.r k.l.g k.l.n
      { block := k.setLR last, response := .ok [], emitted := outs }

/-- The meaning of `LFSR.STEPS`. -/
def execLfsrSteps (count : Nat) (s : State) : Outcome := answer (opLfsrSteps switches count s.toBlock) s

end Sys2Proof.Machine
end

