-- ==== Sys2Proof/Machine/Dispatch.lean ====
section
/-! DEFINITION. Which meaning each operation has: one arm for each constructor of `Instr`. -/

namespace Sys2Proof.Machine

def exec (i : Instr) (s : State) : Host.Outcome State Fault Refusal :=
  match i with
  | .lfsrInit g n seed => Sys2Proof.Machine.execLfsrInit g n seed s
  | .lfsrSet v => Sys2Proof.Machine.execLfsrSet v s
  | .lfsrGet => Sys2Proof.Machine.execLfsrGet s
  | .lfsrStep stateFlag => Sys2Proof.Machine.execLfsrStep stateFlag s
  | .lfsrSteps count => Sys2Proof.Machine.execLfsrSteps count s
  | .divInit g p => Sys2Proof.Machine.execDivInit g p s
  | .divDivide d => Sys2Proof.Machine.execDivDivide d s
  | .divQuot d => Sys2Proof.Machine.execDivQuot d s
  | .divRem d => Sys2Proof.Machine.execDivRem d s
  | .crcInit g nitems => Sys2Proof.Machine.execCrcInit g nitems s
  | .crcEncode payload w => Sys2Proof.Machine.execCrcEncode payload w s
  | .crcDecode received w => Sys2Proof.Machine.execCrcDecode received w s

end Sys2Proof.Machine
end

