-- ==== Sys2Proof/Machine/Step.lean ====
section
/-! DEFINITION. One step: one transaction of the host, carried out whole (30_encoding.md R50, 20_memory.md R42). -/

namespace Sys2Proof.Machine

/-- Take the oldest transaction the host has issued and carry it out. An illegal command word takes `IllegalCommand`
before anything else is looked at (60_exceptions.md R120). With nothing issued the block is idle and holds its registers
(R130, 10_state.md R28; log 2). -/
def step (s : State) : Host.Outcome State Fault Refusal :=
  match s.pending with
  | []        => .next s
  | t :: rest =>
    match decode t with
    | .error _ => answer (raise (.illegalCommand t.word) s.toBlock) { s with pending := rest }
    | .ok i    => exec i { s with pending := rest }

/-- The state in which the very next step runs the transaction of command word `w`: it stands in front of whatever the
host has issued already (log 12). -/
def State.withFetchWord (s : State) (nbits w : Nat) : State :=
  { s with pending := transactionOfWord nbits w :: s.pending }

end Sys2Proof.Machine
end

