-- ==== Sys2Proof/Machine/Assembler.lean ====
section
/-! DEFINITION. The host-side tool (30_encoding.md R57, R58, R59): from the textual form of an operation to the operation
with its full operand list, omitted operands supplied. The block itself never sees text. -/

namespace Sys2Proof.Machine

/-- An operand as written: a number, or a sequence in brackets (30_encoding.md R58). -/
inductive AsmOperand where
  | num (v : Int)
  | list (vs : List Nat)
  deriving DecidableEq, Repr

/-- A natural operand: a number that is not negative (40_bit_conversion.md R71). -/
def asNat : Int → Option Nat
  | .ofNat v   => some v
  | .negSucc _ => none

/-- A bit sequence as written: the elements 0 and 1 only, position 0 first (30_encoding.md R58; log 10). -/
def asBits : List Nat → Option Bits
  | []      => some []
  | 0 :: vs => (asBits vs).map (false :: ·)
  | 1 :: vs => (asBits vs).map (true :: ·)
  | _ :: _  => none

/-- The operation a mnemonic and its written operands stand for; where the last operand may be omitted, the tool supplies
the seed 1 or the item width 8 (30_encoding.md R57, R59). `LFSR.STEP.S` is `LFSR.STEP` with `s = 1`. -/
def assembleOperands (mnemonic : String) (ops : List AsmOperand) : Option Instr :=
  if mnemonic = "LFSR.INIT" then
    match ops with
    | [.num g, .num n]           => do some (.lfsrInit (← asNat g) (← asNat n) 1)
    | [.num g, .num n, .num sd]  => do some (.lfsrInit (← asNat g) (← asNat n) sd)
    | _                          => none
  else if mnemonic = "LFSR.SET" then
    match ops with | [.num v] => do some (.lfsrSet (← asNat v)) | _ => none
  else if mnemonic = "LFSR.GET" then
    match ops with | [] => some .lfsrGet | _ => none
  else if mnemonic = "LFSR.STEP" then
    match ops with | [] => some (.lfsrStep false) | _ => none
  else if mnemonic = "LFSR.STEP.S" then
    match ops with | [] => some (.lfsrStep true) | _ => none
  else if mnemonic = "LFSR.STEPS" then
    match ops with | [.num k] => do some (.lfsrSteps (← asNat k)) | _ => none
  else if mnemonic = "DIV.INIT" then
    match ops with | [.num g, .num p] => do some (.divInit (← asNat g) (← asNat p)) | _ => none
  else if mnemonic = "DIV.DIVIDE" then
    match ops with | [.list d] => do some (.divDivide (← asBits d)) | _ => none
  else if mnemonic = "DIV.QUOT" then
    match ops with | [.list d] => do some (.divQuot (← asBits d)) | _ => none
  else if mnemonic = "DIV.REM" then
    match ops with | [.list d] => do some (.divRem (← asBits d)) | _ => none
  else if mnemonic = "CRC.INIT" then
    match ops with | [.num g, .num n] => do some (.crcInit (← asNat g) (← asNat n)) | _ => none
  else if mnemonic = "CRC.ENCODE" then
    match ops with
    | [.list v]         => some (.crcEncode v 8)
    | [.list v, .num w] => do some (.crcEncode v (← asNat w))
    | _                 => none
  else if mnemonic = "CRC.DECODE" then
    match ops with
    | [.list B]         => do some (.crcDecode (← asBits B) 8)
    | [.list B, .num w] => do some (.crcDecode (← asBits B) (← asNat w))
    | _                 => none
  else none

/-- The mnemonic an operation is written with: its own, or `LFSR.STEP.S` (30_encoding.md R59). -/
def writtenMnemonic : Instr → String
  | .lfsrStep true => "LFSR.STEP.S"
  | i              => i.mnemonic

/-- The operands an operation is written with, all of them (30_encoding.md R58). -/
def writtenOperands : Instr → List AsmOperand
  | .lfsrInit g n seed    => [.num g, .num n, .num seed]
  | .lfsrSet v            => [.num v]
  | .lfsrGet              => []
  | .lfsrStep _           => []
  | .lfsrSteps count      => [.num count]
  | .divInit g p          => [.num g, .num p]
  | .divDivide d          => [.list (d.map Bool.toNat)]
  | .divQuot d            => [.list (d.map Bool.toNat)]
  | .divRem d             => [.list (d.map Bool.toNat)]
  | .crcInit g nitems     => [.num g, .num nitems]
  | .crcEncode payload w  => [.list payload, .num w]
  | .crcDecode received w => [.list (received.map Bool.toNat), .num w]

/-! ### The text (30_encoding.md R58; what it leaves open is log 15) -/

/-- The value of a digit, decimal or hexadecimal. -/
def digitValue (c : Char) : Option Nat :=
  let k := c.toNat
  if 48 ≤ k ∧ k ≤ 57 then some (k - 48)
  else if 97 ≤ k ∧ k ≤ 102 then some (k - 87)
  else if 65 ≤ k ∧ k ≤ 70 then some (k - 55)
  else none

/-- The digits of a number in a base, most significant first, onto a value. -/
def readDigits (base : Nat) : Nat → List Char → Option Nat
  | acc, []      => some acc
  | acc, c :: cs =>
    match digitValue c with
    | some k => if k < base then readDigits base (base * acc + k) cs else none
    | none   => none

/-- A natural in decimal, `0x` hexadecimal or `0b` binary (30_encoding.md R58). -/
def readNat : List Char → Option Nat
  | []                    => none
  | ['0', 'x']            => none
  | ['0', 'b']            => none
  | '0' :: 'x' :: c :: cs => readDigits 16 0 (c :: cs)
  | '0' :: 'b' :: c :: cs => readDigits 2 0 (c :: cs)
  | c :: cs               => readDigits 10 0 (c :: cs)

/-- A number with an optional minus sign (the seed, 60_exceptions.md R117). -/
def readInt : List Char → Option Int
  | '-' :: cs => (readNat cs).map fun v => -(v : Int)
  | '−' :: cs => (readNat cs).map fun v => -(v : Int)
  | cs        => (readNat cs).map fun v => (v : Int)

/-- The pieces between the commas that stand outside brackets. `depth` counts open brackets; `cur` is the piece so far,
last character first. -/
def splitCommas : (depth : Nat) → (cur : List Char) → List Char → List (List Char)
  | _, cur, []          => [cur.reverse]
  | depth, cur, c :: cs =>
    if c = '[' then splitCommas (depth + 1) (c :: cur) cs
    else if c = ']' then splitCommas (depth - 1) (c :: cur) cs
    else if c = ',' ∧ depth = 0 then cur.reverse :: splitCommas depth [] cs
    else splitCommas depth (c :: cur) cs

/-- The comma-separated pieces of a text without spaces; the empty text has none. -/
def commaList (cs : List Char) : List (List Char) := if cs.isEmpty then [] else splitCommas 0 [] cs

/-- One operand: a bracketed list of naturals, or a number. The elements of a bit sequence are read in any of the three forms
of a natural too, where 30_encoding.md R58 writes `[b, b, ...]` (DESIGN CHOICE, log 15). -/
def readOperand : List Char → Option AsmOperand
  | '[' :: cs =>
    if cs.getLast? = some ']' then ((commaList cs.dropLast).mapM readNat).map .list else none
  | cs        => (readInt cs).map .num

/-- The text in front of `->`: the names the results are given change nothing (30_encoding.md R58). -/
def beforeArrow : List Char → List Char
  | '-' :: '>' :: _ => []
  | c :: cs         => c :: beforeArrow cs
  | []              => []

/-- A line of text to the operation it stands for: `MNEMONIC operand, operand, ... -> names` (30_encoding.md R58). -/
def assembleChars (line : List Char) : Option Instr :=
  let body     := (beforeArrow line).dropWhile (· = ' ')
  let mnemonic := String.ofList (body.takeWhile (· ≠ ' '))
  let rest     := (body.dropWhile (· ≠ ' ')).filter (· ≠ ' ')
  ((commaList rest).mapM readOperand).bind (assembleOperands mnemonic)

/-- The same on a string. -/
def assemble (line : String) : Option Instr := assembleChars line.toList

/-! ### Writing the text (30_encoding.md R58), for claims about reading it -/

/-- The three ways a natural is written. -/
inductive NumberForm where
  | decimal | hexadecimal | binary
  deriving DecidableEq, Repr

/-- A natural, by its digits in the base; `0x` and `0b` stand in front of the last two forms. -/
def writeNat : NumberForm → Nat → List Char
  | .decimal, v     => Nat.toDigits 10 v
  | .hexadecimal, v => '0' :: 'x' :: Nat.toDigits 16 v
  | .binary, v      => '0' :: 'b' :: Nat.toDigits 2 v

/-- An integer: a natural, or a minus sign and a natural. -/
def writeInt (form : NumberForm) : Int → List Char
  | .ofNat v   => writeNat form v
  | .negSucc v => '-' :: writeNat form (v + 1)

/-- Pieces with a comma and a space between them. -/
def withCommas : List (List Char) → List Char
  | []           => []
  | [p]          => p
  | p :: q :: ps => p ++ ',' :: ' ' :: withCommas (q :: ps)

/-- An operand: a number, or a sequence in brackets, first element first; the elements of a bit sequence in the same form
(log 15). -/
def writeOperand (form : NumberForm) : AsmOperand → List Char
  | .num v   => writeInt form v
  | .list vs => '[' :: withCommas (vs.map (writeNat form)) ++ [']']

/-- `MNEMONIC operand, operand, ...`. -/
def writeLine (form : NumberForm) (mnemonic : String) (ops : List AsmOperand) : List Char :=
  mnemonic.toList ++ if ops.isEmpty then [] else ' ' :: withCommas (ops.map (writeOperand form))

/-- What may follow the operands: nothing, or an arrow and the names of the results. -/
def IsResultPart (tail : List Char) : Prop := tail = [] ∨ ∃ names, tail = ' ' :: '-' :: '>' :: names

end Sys2Proof.Machine
end

