-- ==== Sys2Proof/Machine/Alternatives.lean ====
section
/-! DEFINITION. The block's step as 10_state.md R27 has it: the configuration and the transaction are parameters, the
registers are the only state, the response and the emitted bits are outputs. And the machine at ANY configuration (the
switches of 00_scope.md R8, the bounds of R7); at `switches` it is `exec` and `step`. -/

namespace Sys2Proof.Machine

/-- Each operation on the block's registers at the configuration `cfg`. `LFSR.GET` and `LFSR.STEP` read no switch: with
`WIDE_STATE = keep_verbatim` the step itself reads only the low `n` bits of the register (41_lfsr.md R85). -/
def operate (cfg : Config) (i : Instr) (k : Block) : Effect :=
  match i with
  | .lfsrInit g n seed    => opLfsrInit cfg g n seed k
  | .lfsrSet v            => opLfsrSet cfg v k
  | .lfsrGet              => opLfsrGet k
  | .lfsrStep stateFlag   => opLfsrStep stateFlag k
  | .lfsrSteps count      => opLfsrSteps cfg count k
  | .divInit g p          => opDivInit cfg g p k
  | .divDivide d          => opDivDivide cfg d k
  | .divQuot d            => opDivQuot cfg d k
  | .divRem d             => opDivRem cfg d k
  | .crcInit g nitems     => opCrcInit cfg g nitems k
  | .crcEncode payload w  => opCrcEncode cfg payload w k
  | .crcDecode received w => opCrcDecode cfg received w k

/-- THE BLOCK'S STEP FUNCTION: one transaction carried out on the registers (30_encoding.md R50; 10_state.md R27). An
illegal command word takes `IllegalCommand` before anything else is looked at (60_exceptions.md R120). -/
def transact (cfg : Config) (t : Transaction) (k : Block) : Effect :=
  match decode t with
  | .error _ => raise (.illegalCommand t.word) k
  | .ok i    => operate cfg i k

/-- `exec` at the configuration `cfg`. -/
def execWith (cfg : Config) (i : Instr) (s : State) : Outcome := answer (operate cfg i s.toBlock) s

/-- `step` at the configuration `cfg`: the block's step on the oldest transaction the host has issued; idle when there is
none (log 2). -/
def stepWith (cfg : Config) (s : State) : Outcome :=
  match s.pending with
  | []        => .next s
  | t :: rest => answer (transact cfg t s.toBlock) { s with pending := rest }

end Sys2Proof.Machine
end

