-- ==== Sys2Proof/Machine/Gf2.lean ====
section
/-! DEFINITION. The GF(2) yardstick of the spec: carry-less product and schoolbook long division (40_bit_conversion.md
R72 (e)), the effective polynomial (41_lfsr.md R81, 42_poly_divider.md R94), and the `top` bits of a division (R95). A
polynomial is the natural whose bit `k` is the coefficient of `x^k` (30_encoding.md R47). No meaning uses this file; claims
about the meanings do. -/

namespace Sys2Proof.Machine

/-- `TAPS = (g mod 2^n) | 1` (41_lfsr.md R80). -/
def taps (g n : Nat) : Nat := (g % 2 ^ n) ||| 1

/-- `g' = 2^n + TAPS`, the effective polynomial: monic of degree `n`, constant term 1 (41_lfsr.md R81). -/
def effectivePoly (g n : Nat) : Nat := 2 ^ n + taps g n

/-- Carry-less product: the XOR of `b` shifted to each set bit of `a` (40_bit_conversion.md R72). -/
def clMul (a b : Nat) : Nat :=
  (List.range (bitlen a)).foldl (fun acc k => if a.testBit k then acc ^^^ (b <<< k) else acc) 0

/-- Schoolbook long division by a polynomial `b` of degree `p` (40_bit_conversion.md R72 (e)): while `bitlen(a) > p`, XOR
`b << (bitlen(a) − 1 − p)` into `a` and set that bit of `q`. The fuel bounds the passes. -/
def longDivLoop : (fuel a b p q : Nat) → Nat × Nat
  | 0, a, _, _, q => (q, a)
  | fuel + 1, a, b, p, q =>
    if p < bitlen a then
      longDivLoop fuel (a ^^^ (b <<< (bitlen a - 1 - p))) b p (q ||| (1 <<< (bitlen a - 1 - p)))
    else (q, a)

/-- Quotient and remainder of `a` by a monic polynomial `b` of degree `p` (40_bit_conversion.md R72 (e)); each pass
shortens `a`, so `bitlen(a)` passes are enough. -/
def longDiv (a b p : Nat) : Nat × Nat := longDivLoop (bitlen a) a b p 0

/-- The quotient of that division. -/
def polyQuot (a b p : Nat) : Nat := (longDiv a b p).1

/-- The remainder of that division. -/
def polyMod (a b p : Nat) : Nat := (longDiv a b p).2

/-- `top_j` for every iteration `j` of a division loop from register `r` (42_poly_divider.md R95). -/
def divTops (cfg : Config) (g p : Nat) : Nat → Bits → Bits
  | _, []     => []
  | r, b :: d => topBit r p :: divTops cfg g p (divStep cfg g p r b) d

/-- The state after `t` LFSR steps (41_lfsr.md R81). -/
def lfsrIterate (g n : Nat) : (t s : Nat) → Nat
  | 0, s     => s
  | t + 1, s => lfsrIterate g n t (lfsrStep s g n).2

/-- Position-wise XOR of two sequences: the codeword with an error pattern in it (43_crc_codec.md R109). -/
def xorBits (A B : Bits) : Bits := List.zipWith Bool.xor A B

end Sys2Proof.Machine
end

