-- ==== Sys2Proof/Safety.lean ====
section
/-! DEFINITION. What claims speak of: the slot invariants, the state invariant, when a step is safe, how an operation can
end, which slot it works on, and which registers can be observed. -/

namespace Sys2Proof.Machine

/-! ### Invariants -/

/-- A configured slot `L`: the degree is at least 1, `L.G` fits `L.N + 1` bits and `L.R` fits `L.N` bits (10_state.md R15,
R16, R17). -/
abbrev LfsrSlot.Inv (x : LfsrSlot) : Prop :=
  x.valid = true → 1 ≤ x.n ∧ x.g < 2 ^ (x.n + 1) ∧ x.r < 2 ^ x.n

/-- A configured slot `D` (10_state.md R18). -/
abbrev DivSlot.Inv (x : DivSlot) : Prop :=
  x.valid = true → 1 ≤ x.p ∧ x.g < 2 ^ (x.p + 1) ∧ x.r < 2 ^ x.p

/-- The degree of the codec's generator, `C.CRCLEN − 1` (10_state.md R20). -/
abbrev CrcSlot.degree (x : CrcSlot) : Nat := x.crcLen - 1

/-- A configured slot `C`: `C.CRCLEN` is the bit-length of the generator and at least 2, and `C.R` fits `C.CRCLEN − 1`
bits (10_state.md R20). -/
abbrev CrcSlot.Inv (x : CrcSlot) : Prop :=
  x.valid = true → x.crcLen = bitlen x.g ∧ 2 ≤ x.crcLen ∧ x.r < 2 ^ x.degree

/-- The widths of 10_state.md hold in every configured slot. -/
abbrev State.Inv (s : State) : Prop := s.l.Inv ∧ s.d.Inv ∧ s.c.Inv

/-- A step is safe when the machine goes on. -/
def State.StepSafe (s : State) : Prop := ∃ t, step s = .next t

/-! ### How an operation ends -/

/-- The operation, run in `s`, ends in the fault `f`: that status goes to the host and nothing else changes
(60_exceptions.md R118). -/
abbrev Faults (i : Instr) (s : State) (f : FaultStatus) : Prop :=
  exec i s = .next (respond (.fault f) s)

/-- The same at the configuration `cfg`. -/
abbrev FaultsAt (cfg : Config) (i : Instr) (s : State) (f : FaultStatus) : Prop :=
  execWith cfg i s = .next (respond (.fault f) s)

/-- The operation, run in `s`, is carried out: the host gets `OK` with these results, and the state is otherwise `t`. -/
abbrev Completes (i : Instr) (s : State) (results : List Value) (t : State) : Prop :=
  exec i s = .next (respond (.ok results) t)

/-! ### Which slot -/

/-- The slot an operation works on (10_state.md R14). -/
def slotOf : Instr → SlotName
  | .lfsrInit _ _ _ | .lfsrSet _ | .lfsrGet | .lfsrStep _ | .lfsrSteps _ => .L
  | .divInit _ _ | .divDivide _ | .divQuot _ | .divRem _                 => .D
  | .crcInit _ _ | .crcEncode _ _ | .crcDecode _ _                       => .C

/-- The three `INIT` operations, the only ones an unconfigured slot carries out (60_exceptions.md R121). -/
def isInit : Instr → Bool
  | .lfsrInit _ _ _ | .divInit _ _ | .crcInit _ _                        => true
  | .lfsrSet _ | .lfsrGet | .lfsrStep _ | .lfsrSteps _
  | .divDivide _ | .divQuot _ | .divRem _
  | .crcEncode _ _ | .crcDecode _ _                                      => false

/-- The operands the host presents are those of the operation (30_encoding.md R53); the ones it does not take are free. -/
def HasOperands : Instr → Operands → Prop
  | .lfsrInit g n seed, o    => o.g = g ∧ o.n = n ∧ o.seed = seed
  | .lfsrSet v, o            => o.s = v
  | .lfsrGet, _              => True
  | .lfsrStep _, _           => True
  | .lfsrSteps count, o      => o.count = count
  | .divInit g p, o          => o.g = g ∧ o.p = p
  | .divDivide d, o          => o.d = d
  | .divQuot d, o            => o.d = d
  | .divRem d, o             => o.d = d
  | .crcInit g nitems, o     => o.g = g ∧ o.nitems = nitems
  | .crcEncode payload w, o  => o.payload = payload ∧ o.w = w
  | .crcDecode received w, o => o.received = received ∧ o.w = w

/-! ### What can be observed -/

/-- Two states no operation can tell apart (10_state.md R30): the same VALID bits, the same registers in every configured
slot, and the same at the host interface. The registers of an unconfigured slot may differ. -/
structure State.Indistinguishable (s t : State) : Prop where
  l : s.l.valid = t.l.valid ∧ (s.l.valid = true → s.l = t.l)
  d : s.d.valid = t.d.valid ∧ (s.d.valid = true → s.d = t.d)
  c : s.c.valid = t.c.valid ∧ (s.c.valid = true → s.c = t.c)
  pending   : s.pending = t.pending
  responses : s.responses = t.responses
  sink      : s.sink = t.sink

/-- The block's registers are the same in both states: all three slots (60_exceptions.md R118). -/
abbrev State.SameRegisters (s t : State) : Prop := s.l = t.l ∧ s.d = t.d ∧ s.c = t.c

end Sys2Proof.Machine
end

