-- ==== Sys2Proof/WellFormed.lean ====
section
/-! DEFINITION. Which operations have operands inside the legal ranges of 00_scope.md R7, as far as the operands alone
decide it. An operation outside them is not meaningless: it runs and reports the fault its rule names (60_exceptions.md
R117, R119, R122), so neither the decoder nor the machine asks this question (log 17). -/

namespace Sys2Proof

/-- The operand ranges of 00_scope.md R7: `n ≥ 1`, `p ≥ 1`, `g ≥ 2` for a codec, `W ≥ 1`, `L ≥ 1`, with the seed a value
of the register (41_lfsr.md R74) and each item below `2^W` (43_crc_codec.md R104). -/
def Instr.wellFormed : Instr → Bool
  | .lfsrInit _ n seed   => decide (1 ≤ n) && decide (0 ≤ seed) && decide (seed.toNat < 2 ^ n)
  | .lfsrSet _           => true
  | .lfsrGet             => true
  | .lfsrStep _          => true
  | .lfsrSteps _         => true
  | .divInit _ p         => decide (1 ≤ p)
  | .divDivide d         => !d.isEmpty
  | .divQuot d           => !d.isEmpty
  | .divRem d            => !d.isEmpty
  | .crcInit g _         => decide (2 ≤ g)
  | .crcEncode payload w => decide (1 ≤ w) && payload.all fun v => decide (v < 2 ^ w)
  | .crcDecode _ w       => decide (1 ≤ w)

end Sys2Proof
end

