-- ==== Sys2Proof/Certificates/Slice0/Obligations.lean ====
section
/-! DEFINITION. The statements for the provers. A rule the spec marks [derived] or [decision] is the spec's own inference or
choice, not its source's words: a statement that rests on one says so. -/

open Sys2Proof Sys2Proof.Machine

/-! ## Encoding -/

/-- Decoding an encoded operation gives it back, and a transaction decodes to an operation exactly when its command word
is that operation's and the operands beside it are that operation's: no operand is dropped, mixed up, or read from the
word (30_encoding.md R52, R53, R57, R60; the numbers are the spec's decisions D2 and D3; the operand record is log 5). -/
def Obligations.DecodeReadsExactlyTheEncodedOperation : Prop :=
  (∀ i : Instr, decode (encode i) = .ok i) ∧
  ∀ (t : Transaction) (i : Instr),
    decode t = .ok i ↔ t.word = (encode i).word ∧ HasOperands i t.operands

/-- The thirteen legal command words of 30_encoding.md R60, each written out, decode to the operations they stand for, on
whatever operands the host presents (the spec's decisions D2 and D3). -/
def Obligations.ThirteenCommandWordsDecodeAsListed : Prop :=
  ∀ o : Operands,
    decode ⟨0b00000000#8, o⟩ = .ok (.lfsrInit o.g o.n o.seed) ∧
    decode ⟨0b00000001#8, o⟩ = .ok (.lfsrSet o.s) ∧
    decode ⟨0b00000010#8, o⟩ = .ok .lfsrGet ∧
    decode ⟨0b00000011#8, o⟩ = .ok (.lfsrStep false) ∧
    decode ⟨0b00010011#8, o⟩ = .ok (.lfsrStep true) ∧
    decode ⟨0b00000100#8, o⟩ = .ok (.lfsrSteps o.count) ∧
    decode ⟨0b00000101#8, o⟩ = .ok (.divInit o.g o.p) ∧
    decode ⟨0b00000110#8, o⟩ = .ok (.divDivide o.d) ∧
    decode ⟨0b00000111#8, o⟩ = .ok (.divQuot o.d) ∧
    decode ⟨0b00001000#8, o⟩ = .ok (.divRem o.d) ∧
    decode ⟨0b00001001#8, o⟩ = .ok (.crcInit o.g o.nitems) ∧
    decode ⟨0b00001010#8, o⟩ = .ok (.crcEncode o.payload o.w) ∧
    decode ⟨0b00001011#8, o⟩ = .ok (.crcDecode o.received o.w)

/-- A command word is rejected exactly when `cmd[7:5] ≠ 000`, or `op` is one of `0xC` to `0xF`, or `s = 1` with
`op ≠ 0x3`; 243 of the 256 words are (30_encoding.md R55, the spec's decision D4). Every other word belongs to exactly one
row of the opcode table, the row of the operation it decodes to. -/
def Obligations.IllegalCommandWordsAreTheOther243 : Prop :=
  (∀ (w : CommandWord) (o : Operands),
    (∃ r, decode ⟨w, o⟩ = .error r) ↔
      w.extractLsb' 5 3 ≠ 0#3 ∨ 12 ≤ (w.extractLsb' 0 4).toNat ∨
        (w.extractLsb' 4 1 = 1#1 ∧ w.extractLsb' 0 4 ≠ 3#4)) ∧
  ((List.range 256).filter fun v => (decode ⟨BitVec.ofNat 8 v, {}⟩).toOption.isNone).length = 243 ∧
  ∀ (w : CommandWord) (o : Operands),
    (opcodeTable.filter fun r => r.covers w).map (fun r => r.mnemonic) =
      match decode ⟨w, o⟩ with
      | .ok i    => [i.mnemonic]
      | .error _ => []

/-- The text an operation is written as (mnemonic, operands between commas, naturals in any of the three forms, sequences in
brackets, with or without result names behind an arrow) reads back as that operation; each form of a natural reads back as
it; an omitted seed is 1, an omitted item width 8, and `LFSR.STEP.S` is `LFSR.STEP` with `s = 1` (30_encoding.md R58, R59,
the spec's decision D3; spaces, the minus sign and bits written `0x1` or `0b1` are the model's choice, log 15). -/
def Obligations.WrittenFormAssemblesBack : Prop :=
  (∀ (form : NumberForm) (v : Nat), readNat (writeNat form v) = some v) ∧
  (∀ (i : Instr) (form : NumberForm) (tail : List Char), IsResultPart tail →
    assemble (String.ofList (writeLine form (writtenMnemonic i) (writtenOperands i) ++ tail)) = some i) ∧
  ∀ (form : NumberForm) (tail : List Char), IsResultPart tail →
    (∀ g n : Nat, assemble (String.ofList (writeLine form "LFSR.INIT" [.num g, .num n] ++ tail)) =
      some (.lfsrInit g n 1)) ∧
    (∀ v : Items, assemble (String.ofList (writeLine form "CRC.ENCODE" [.list v] ++ tail)) = some (.crcEncode v 8)) ∧
    (∀ B : Bits, assemble (String.ofList (writeLine form "CRC.DECODE" [.list (B.map Bool.toNat)] ++ tail)) =
      some (.crcDecode B 8)) ∧
    assemble (String.ofList (writeLine form "LFSR.STEP.S" [] ++ tail)) = some (.lfsrStep true)

/-! ## The step -/

/-- When the oldest transaction decodes to an operation, the step is that operation's meaning, with the transaction taken
from the stream; and `withFetchWord` puts the transaction of a command word where the next step takes it (log 12). -/
def Obligations.StepRunsTheDecodedOperation : Prop :=
  (∀ (s : State) (t : Transaction) (rest : List Transaction) (i : Instr),
    s.pending = t :: rest → decode t = .ok i → step s = exec i { s with pending := rest }) ∧
  ∀ (s : State) (nbits w : Nat) (i : Instr),
    decodeTableWord nbits w = some i → step (s.withFetchWord nbits w) = exec i s

/-- An illegal command word, whatever the state of the slots and whatever the operands, is answered by `IllegalCommand`
with the command word recorded; nothing else changes (60_exceptions.md R120, R118: the spec's decisions D4 and D13). With
nothing issued the block is idle and holds everything (R130; reading the idle step so is log 2). -/
def Obligations.IllegalCommandAnsweredAndIdleHolds : Prop :=
  (∀ (s : State) (t : Transaction) (rest : List Transaction) (r : Reject),
    s.pending = t :: rest → decode t = .error r →
      step s = .next { s with pending := rest, responses := s.responses ++ [.fault (.illegalCommand t.word)] }) ∧
  ∀ s : State, s.pending = [] → step s = .next s

/-- No step stops the machine. With a transaction issued, a step takes exactly the oldest and returns exactly one response
for it; it only appends to the output stream (60_exceptions.md R116; 20_memory.md R42, R46; 70_reset_and_hazards.md R147).
With nothing issued a step changes nothing and returns no response: reading the idle block as such a step is the model's
(log 2, DEDUCED). -/
def Obligations.EveryStepGoesOnWithOneResponse : Prop :=
  ∀ s : State, ∃ t : State, step s = .next t ∧
    t.pending = s.pending.tail ∧
    (s.pending = [] → t = s) ∧
    (s.pending ≠ [] → ∃ r, t.responses = s.responses ++ [r]) ∧
    ∃ out, t.sink = s.sink ++ out

/-- Every operation ends: as many steps as there are transactions carry out all of them, in order, with one response for
each (20_memory.md R42; 70_reset_and_hazards.md R147). -/
def Obligations.EveryIssuedOperationEnds : Prop :=
  ∀ s : State, ∃ t : State, Host.Core.run Sys2Proof.core s.pending.length s = .next t ∧
    t.pending = [] ∧
    s.responses <+: t.responses ∧
    t.responses.length = s.responses.length + s.pending.length

/-- An operation reads nothing of the host's later transactions, of the responses already returned, or of what the output
stream already holds (20_memory.md R42; 10_state.md R27): whatever those are, it answers the same and appends the same. -/
def Obligations.OperationsReadOnlyTheirOperandsAndRegisters : Prop :=
  ∀ (i : Instr) (s : State), ∃ (l : LfsrSlot) (d : DivSlot) (c : CrcSlot) (r : Response) (out : Bits),
    ∀ (q : List Transaction) (rs : List Response) (sk : List Bool),
      exec i { s with pending := q, responses := rs, sink := sk } =
        .next { l := l, d := d, c := c, pending := q, responses := rs ++ [r], sink := sk ++ out }

/-! ## Reset, invariants, whole-machine rules -/

/-- At power-on the three VALID bits are 0 (10_state.md R30, 70_reset_and_hazards.md R132, the spec's decision D14), and
every operation but the three `INIT` is answered by `NotConfigured` with its slot's name. -/
def Obligations.PowerOnLeavesEverySlotUnconfigured : Prop :=
  State.reset.l.valid = false ∧ State.reset.d.valid = false ∧ State.reset.c.valid = false ∧
  ∀ i : Instr, isInit i = false → Faults i State.reset (.notConfigured (slotOf i))

/-- The registers of an unconfigured slot cannot be observed (10_state.md R30, the spec's decision D14): two states that
differ in nothing else answer every step alike and stay so. The values the model gives those registers at reset (log 3)
therefore decide no response. -/
def Obligations.UnconfiguredRegistersCannotBeObserved : Prop :=
  ∀ s s' t : State, s.Indistinguishable s' → step s = .next t →
    ∃ t', step s' = .next t' ∧ t.Indistinguishable t'

/-- The widths and relations of 10_state.md R15 to R18 and R20 hold at power-on. -/
def Obligations.RegisterWidthsHoldAtPowerOn : Prop := State.reset.Inv

/-- Every step keeps them: in a configured slot the degree is at least 1, the polynomial fits its register, the shift
register is below `2^n` (`2^p`), and the codec's `C.CRCLEN` is the bit-length of its generator (10_state.md R15 to R18,
R20; the width of `L.R` is the spec's decision D7). -/
def Obligations.EveryStepKeepsRegisterWidths : Prop :=
  ∀ s t : State, s.Inv → step s = .next t → t.Inv

/-- No step clears a VALID bit, and a VALID bit comes to be set only by the `INIT` of its own slot (10_state.md R25; 70
R133, the spec's decision D14). -/
def Obligations.OnlyInitSetsValidAndNothingClearsIt : Prop :=
  ∀ (s t : State) (k : SlotName), step s = .next t →
    (s.slotValid k = true → t.slotValid k = true) ∧
    (s.slotValid k = false → t.slotValid k = true →
      ∃ tx rest i, s.pending = tx :: rest ∧ decode tx = .ok i ∧ isInit i = true ∧ slotOf i = k)

/-- The frame across slots, for every operation: the two slots it does not work on are unchanged (10_state.md R14, which the
spec marks derived), the host's later transactions are unchanged, the responses only grow by one, and only `LFSR.STEPS`
touches the output stream. -/
def Obligations.OperationsTouchOnlyTheirOwnSlot : Prop :=
  ∀ (i : Instr) (s t : State), exec i s = .next t →
    (slotOf i ≠ .L → t.l = s.l) ∧ (slotOf i ≠ .D → t.d = s.d) ∧ (slotOf i ≠ .C → t.c = s.c) ∧
    t.pending = s.pending ∧ (∃ r, t.responses = s.responses ++ [r]) ∧
    ((∀ count, i ≠ .lfsrSteps count) → t.sink = s.sink)

/-- The frame inside a slot: an operation that is not an `INIT` changes no configuration register, only the shift register
`R` of its slot; and `LFSR.GET` changes none at all (10_state.md, the "written by" columns of R15, R18, R20; R28). -/
def Obligations.ConfigurationIsWrittenOnlyByInit : Prop :=
  (∀ (i : Instr) (s t : State), isInit i = false → exec i s = .next t →
    t.l = { s.l with r := t.l.r } ∧ t.d = { s.d with r := t.d.r } ∧ t.c = { s.c with r := t.c.r }) ∧
  ∀ s t : State, exec .lfsrGet s = .next t → t.SameRegisters s

/-- A fault changes no register of any slot, gives no result and appends nothing to the output stream: the state is as it
was but for the status returned (60_exceptions.md R118, R126: the spec's decisions D13 and D22). So a failing `INIT`
leaves its slot configured or unconfigured as it was. At the level of a step the same holds, illegal command words
included. -/
def Obligations.FaultsChangeNothing : Prop :=
  (∀ (i : Instr) (s t : State) (f : FaultStatus),
    exec i s = .next t → t.responses = s.responses ++ [.fault f] → t = respond (.fault f) s) ∧
  ∀ (s t : State) (f : FaultStatus),
    step s = .next t → t.responses = s.responses ++ [.fault f] →
      t = respond (.fault f) { s with pending := s.pending.tail }

/-! ## Faults: exactly when each is raised -/

/-- `NotConfigured` is raised by the nine operations that are not an `INIT`, exactly when their slot's VALID is 0, whatever
their operands: it comes before every other fault of theirs (60_exceptions.md R121, R124: the spec's decisions D6, D13). -/
def Obligations.NotConfiguredExactlyOnInvalidSlots : Prop :=
  ∀ (i : Instr) (s : State) (k : SlotName),
    Faults i s (.notConfigured k) ↔ isInit i = false ∧ k = slotOf i ∧ s.slotValid k = false

/-- `InvalidSeed` is raised by `LFSR.INIT` alone, exactly when the seed is negative, with the seed recorded, and before any
test of `n` (60_exceptions.md R117, R124; the order is the spec's decision D13). -/
def Obligations.InvalidSeedExactlyOnNegativeSeeds : Prop :=
  ∀ (i : Instr) (s : State) (seed : Int),
    Faults i s (.invalidSeed seed) ↔ seed < 0 ∧ ∃ g n, i = .lfsrInit g n seed

/-- `BadParameter` is raised for exactly these causes: `LFSR.INIT` with `n = 0` or `seed ≥ 2^n`; `LFSR.SET` with
`s ≥ 2^L.N`; `DIV.INIT` with `p = 0`; `CRC.INIT` with `g < 2`; each where no earlier fault of R124 applies
(60_exceptions.md R122: the spec's decisions D7 and D9). -/
def Obligations.BadParameterExactlyOnItsCauses : Prop :=
  ∀ (i : Instr) (s : State) (q : ParamName),
    Faults i s (.badParameter q) ↔
      (∃ g seed, i = .lfsrInit g 0 seed ∧ 0 ≤ seed ∧ q = .n) ∨
      (∃ g n seed, i = .lfsrInit g n seed ∧ 1 ≤ n ∧ 0 ≤ seed ∧ 2 ^ n ≤ seed.toNat ∧ q = .seed) ∨
      (∃ v, i = .lfsrSet v ∧ s.l.valid = true ∧ 2 ^ s.l.n ≤ v ∧ q = .s) ∨
      (∃ g, i = .divInit g 0 ∧ q = .p) ∨
      (∃ g nitems, i = .crcInit g nitems ∧ g < 2 ∧ q = .g)

/-- `MalformedInput` is raised for exactly these causes, tested in this order: an empty dividend; for `CRC.ENCODE` the item
width 0, then the payload length, then an item `≥ 2^W`; for `CRC.DECODE` the item width 0, then the received length,
shorter or longer (60_exceptions.md R119, R124: the spec's decisions D8, D9 and D13). -/
def Obligations.MalformedInputExactlyOnItsCauses : Prop :=
  ∀ (i : Instr) (s : State) (m : MalformedCause),
    Faults i s (.malformedInput m) ↔
      ((i = .divDivide [] ∨ i = .divQuot [] ∨ i = .divRem []) ∧ s.d.valid = true ∧ m = .emptyDividend) ∨
      (∃ payload w, i = .crcEncode payload w ∧ s.c.valid = true ∧
        ((w = 0 ∧ m = .itemWidth) ∨
         (1 ≤ w ∧ payload.length ≠ s.c.nitems ∧ m = .payloadLength) ∨
         (1 ≤ w ∧ payload.length = s.c.nitems ∧ (∃ v ∈ payload, 2 ^ w ≤ v) ∧ m = .itemValue))) ∨
      (∃ received w, i = .crcDecode received w ∧ s.c.valid = true ∧
        ((w = 0 ∧ m = .itemWidth) ∨
         (1 ≤ w ∧ received.length ≠ s.c.nitems * w + s.c.degree ∧ m = .receivedLength)))

/-- A nonzero syndrome is no fault: `CRC.DECODE` of any sequence of the right length returns `OK`, whatever the syndrome.
Nor is a polynomial that breaks the invariant of 30_encoding.md R47: the three `INIT` accept every `g` (a codec's `g ≥ 2`,
which R122 asks) (60_exceptions.md R123). -/
def Obligations.NonzeroSyndromeAndOddPolynomialsAreNoFault : Prop :=
  (∀ (s : State) (received : Bits) (w : Nat), s.c.valid = true → 1 ≤ w →
    received.length = s.c.nitems * w + s.c.degree →
      ∃ v syndrome t, Completes (.crcDecode received w) s [.items v, .nat syndrome] t) ∧
  (∀ (s : State) (g n seed : Nat), 1 ≤ n → seed < 2 ^ n → ∃ t, Completes (.lfsrInit g n seed) s [] t) ∧
  (∀ (s : State) (g p : Nat), 1 ≤ p → ∃ t, Completes (.divInit g p) s [] t) ∧
  (∀ (s : State) (g nitems : Nat), 2 ≤ g → ∃ t, Completes (.crcInit g nitems) s [] t)

/-- When an operation is carried out: exactly when its operands are in the legal ranges of 00_scope.md R7 (`wellFormed`), its
slot is configured or it is an `INIT`, and its operand fits the slot's configuration (41_lfsr.md R75, 43_crc_codec.md R104,
R105). It then returns `OK`; the ranges and refusals are the spec's decisions D6 to D9. -/
def Obligations.OperationsCompleteExactlyWhenOperandsFit : Prop :=
  ∀ (i : Instr) (s : State),
    (∃ vs t, Completes i s vs t) ↔
      i.wellFormed = true ∧ (isInit i = true ∨ s.slotValid (slotOf i) = true) ∧
      (∀ v, i = .lfsrSet v → v < 2 ^ s.l.n) ∧
      (∀ payload w, i = .crcEncode payload w → payload.length = s.c.nitems) ∧
      (∀ received w, i = .crcDecode received w → received.length = s.c.nitems * w + s.c.degree)

/-- An implementation with bounds refuses beyond them: a register width above `NMAX` with `BadParameter`, a sequence length
or step count above `LMAX` with `MalformedInput`, for every operation that takes one (92_eei_decisions.md D23; where among the tests they stand is the model's
choice, log 7, as is that the length of `CRC.ENCODE` is its codeword's). At the spec's configuration `execWith` is `exec`. -/
def Obligations.BoundedImplementationsRefuseBeyondTheirBounds : Prop :=
  (∀ (i : Instr) (s : State), execWith switches i s = exec i s) ∧
  ∀ (cfg : Config) (m : Nat) (s : State),
    (cfg.nmax = some m →
      (∀ g n (seed : Nat), m < n → FaultsAt cfg (.lfsrInit g n seed) s (.badParameter .n)) ∧
      (∀ g p, m < p → FaultsAt cfg (.divInit g p) s (.badParameter .p)) ∧
      (∀ g nitems, 2 ^ (m + 1) ≤ g → FaultsAt cfg (.crcInit g nitems) s (.badParameter .g))) ∧
    (cfg.lmax = some m →
      (∀ count, s.l.valid = true → m < count → FaultsAt cfg (.lfsrSteps count) s (.malformedInput .overLength)) ∧
      (∀ (d : Bits) (i : Instr), s.d.valid = true → m < d.length → i = .divDivide d ∨ i = .divQuot d ∨ i = .divRem d →
        FaultsAt cfg i s (.malformedInput .overLength)) ∧
      (∀ (payload : Items) (w : Nat), s.c.valid = true → 1 ≤ w → payload.length = s.c.nitems →
        (∀ v ∈ payload, v < 2 ^ w) → m < s.c.nitems * w + s.c.degree →
          FaultsAt cfg (.crcEncode payload w) s (.malformedInput .overLength)) ∧
      (∀ (received : Bits) (w : Nat), s.c.valid = true → 1 ≤ w →
        received.length = s.c.nitems * w + s.c.degree → m < received.length →
          FaultsAt cfg (.crcDecode received w) s (.malformedInput .overLength)))

/-! ## Sequences and conversions -/

/-- `to_bits(value, length)` has exactly `length` bits, and its position `i` is the bit of weight `2^(length−1−i)`, that is
`floor(value / 2^(length−1−i)) mod 2`; so the higher bits are dropped and a short value is filled with zeros in front. -/
def Obligations.ToBitsKeepsTheLowBitsMsbFirst : Prop :=
  (∀ v N : Nat, (toBits v N).length = N) ∧
  (∀ v N i : Nat, i < N → (bitAt (toBits v N) i).toNat = v / 2 ^ (N - 1 - i) % 2) ∧
  (∀ v N : Nat, toBits (v % 2 ^ N) N = toBits v N) ∧
  (∀ v N k : Nat, v < 2 ^ N → toBits v (k + N) = zeros k ++ toBits v N) ∧
  (∀ v : Nat, toBits v 0 = []) ∧
  toBits 5 4 = [false, true, false, true] ∧ toBits 0x1B 4 = [true, false, true, true] ∧
  toBits 0x6D 8 = [false, true, true, false, true, true, false, true]

/-- The laws of 40_bit_conversion.md R70 (which the spec marks derived): the two conversions undo one another up to the
length, and doubling then re-encoding is a left shift by one position that loses position 0. With them the minimal form
(R68): `to_bits(0) = [0]`, and a nonzero value begins with a 1. -/
def Obligations.BitConversionLaws : Prop :=
  (∀ v N : Nat, fromBits (toBits v N) = v % 2 ^ N) ∧
  (∀ B : Bits, toBits (fromBits B) B.length = B) ∧
  (∀ v N : Nat, toBits (2 * v) (N + 1) = (toBits v (N + 1)).tail ++ [false]) ∧
  toBitsMinimal 0 = [false] ∧
  (∀ v : Nat, 1 ≤ v → (toBitsMinimal v).head? = some true ∧ fromBits (toBitsMinimal v) = v)

/-- Item `k` of a payload stands at positions `k·W .. (k+1)·W − 1` of its bit form, most significant bit first: the bit of
weight `2^b` of item `k` stands at position `k·W + (W − 1 − b)`; and the first item is the most significant part of the
message. -/
def Obligations.PayloadItemsStandMsbFirstInOrder : Prop :=
  (∀ (payload : Items) (w : Nat), (flatten payload w).length = payload.length * w) ∧
  (∀ (payload : Items) (w k b : Nat), k < payload.length → b < w →
    bitAt (flatten payload w) (k * w + (w - 1 - b)) = (payload.getD k 0).testBit b) ∧
  ∀ (v : Nat) (payload : Items) (w : Nat), v < 2 ^ w →
    flatten (v :: payload) w = toBits v w ++ flatten payload w ∧
    fromBits (flatten (v :: payload) w) = v * 2 ^ (payload.length * w) + fromBits (flatten payload w)

/-! ## The LFSR unit -/

/-- `LFSR.INIT g, n, seed` with `n ≥ 1` and a seed the register can hold configures slot `L`: every register of the slot
has the value of 10_state.md R29, whatever it held, and nothing else changes (41_lfsr.md R74; the two refusals left out
here are the spec's decisions D7 and D9, and the stored form of `g` its decision D25). -/
def Obligations.LfsrInitConfiguresTheSlot : Prop :=
  ∀ (g n seed : Nat) (s : State), 1 ≤ n → seed < 2 ^ n →
    Completes (.lfsrInit g n seed) s [] { s with l := { valid := true, n := n, g := g % 2 ^ (n + 1), r := seed } }

/-- `LFSR.SET s` with `s` below `2^L.N` writes `L.R` and nothing else; `LFSR.GET` returns `L.R` and changes nothing; so a
set followed by a get returns the value set (41_lfsr.md R75, R76). -/
def Obligations.LfsrSetWritesAndGetReads : Prop :=
  (∀ (v : Nat) (s : State), s.l.valid = true → v < 2 ^ s.l.n →
    Completes (.lfsrSet v) s [] { s with l := { s.l with r := v } }) ∧
  (∀ s : State, s.l.valid = true → Completes .lfsrGet s [.nat s.l.r] s) ∧
  ∀ (v : Nat) (s : State), s.l.valid = true → v < 2 ^ s.l.n →
    ∃ t, exec (.lfsrSet v) s = .next t ∧ Completes .lfsrGet t [.nat v] t

/-- The step function of 41_lfsr.md R79, position by position, is the closed form of R80 (which the spec marks derived):
`ns = ((2·s) mod 2^n) ^ (fb·TAPS)`, `out = ns.bit(n−1)`, and bit by bit `ns.bit(0) = fb`,
`ns.bit(k) = s.bit(k−1) ^ (g.bit(k) & fb)`. -/
def Obligations.LfsrStepIsItsClosedForm : Prop :=
  ∀ s g n : Nat, 1 ≤ n → s < 2 ^ n →
    let fb := s.testBit (n - 1)
    let ns := ((2 * s) % 2 ^ n) ^^^ (if fb then taps g n else 0)
    lfsrStep s g n = (ns.testBit (n - 1), ns) ∧ ns < 2 ^ n ∧ ns.testBit 0 = fb ∧
      ∀ k, 1 ≤ k → k ≤ n - 1 → ns.testBit k = (s.testBit (k - 1) ^^ (g.testBit k && fb))

/-- `LFSR.STEP` on a configured slot: the new `L.R` is the closed form of 41_lfsr.md R80 on the old one; it returns the new
most significant bit, and with the modifier `s` the new state too; nothing else changes (R77, R84; 30_encoding.md R54). -/
def Obligations.LfsrStepStepsTheRegister : Prop :=
  ∀ (stateFlag : Bool) (s : State), s.l.valid = true → s.l.Inv →
    let ns := ((2 * s.l.r) % 2 ^ s.l.n) ^^^ (if s.l.r.testBit (s.l.n - 1) then taps s.l.g s.l.n else 0)
    Completes (.lfsrStep stateFlag) s
      (if stateFlag then [.bit (ns.testBit (s.l.n - 1)), .nat ns] else [.bit (ns.testBit (s.l.n - 1))])
      { s with l := { s.l with r := ns } }

/-- `LFSR.STEPS count` on a configured slot steps the register `count` times and appends to the output stream, in order,
the most significant bit of each state it reaches (not of the one it starts from); it returns nothing else
(41_lfsr.md R78, R84; the output stream is the spec's decision D24). -/
def Obligations.LfsrStepsEmitsEachNewTopBit : Prop :=
  ∀ (count : Nat) (s : State), s.l.valid = true → s.l.Inv →
    Completes (.lfsrSteps count) s []
      { s with
        l := { s.l with r := lfsrIterate s.l.g s.l.n count s.l.r }
        sink := s.sink ++ (List.range count).map fun j =>
          (lfsrIterate s.l.g s.l.n (j + 1) s.l.r).testBit (s.l.n - 1) }

/-- `LFSR.STEPS a` then `LFSR.STEPS b` has the effect of `LFSR.STEPS a+b`; `LFSR.STEPS 0` changes no register and emits
nothing; and `LFSR.STEPS k+1` leaves the register that `LFSR.STEP` then `LFSR.STEPS k` leaves (41_lfsr.md R78). -/
def Obligations.LfsrStepsCompose : Prop :=
  (∀ (a b : Nat) (s t u : State), exec (.lfsrSteps a) s = .next t → exec (.lfsrSteps b) t = .next u →
    ∃ v, exec (.lfsrSteps (a + b)) s = .next v ∧ v.l = u.l ∧ v.sink = u.sink) ∧
  (∀ s : State, s.l.valid = true → Completes (.lfsrSteps 0) s [] s) ∧
  ∀ (k : Nat) (f : Bool) (s t u : State), exec (.lfsrStep f) s = .next t → exec (.lfsrSteps k) t = .next u →
    ∃ v, exec (.lfsrSteps (k + 1)) s = .next v ∧ v.l = u.l

/-- One step multiplies the register polynomial by `x` modulo the effective polynomial, and `t` steps by `x^t`; a
polynomial that is monic of degree `n` with constant term 1 is its own effective polynomial (41_lfsr.md R81, which the spec
marks derived). The remainder is schoolbook GF(2) long division. -/
def Obligations.LfsrStepsMultiplyByXModuloThePolynomial : Prop :=
  (∀ s g n : Nat, 1 ≤ n → s < 2 ^ n → (lfsrStep s g n).2 = polyMod (2 * s) (effectivePoly g n) n) ∧
  (∀ s g n t : Nat, 1 ≤ n → s < 2 ^ n → lfsrIterate g n t s = polyMod (s * 2 ^ t) (effectivePoly g n) n) ∧
  ∀ g n : Nat, 1 ≤ n → 2 ^ n ≤ g → g < 2 ^ (n + 1) → g % 2 = 1 → effectivePoly g n = g

/-- Only the coefficients of `x^(n−1) .. x^1` of the polynomial matter: two polynomials that agree on them give the same
step, on every state (41_lfsr.md R82, which the spec marks derived). -/
def Obligations.OnlyMiddleCoefficientsMatter : Prop :=
  ∀ s g g' n : Nat, 1 ≤ n → (∀ k, 1 ≤ k → k < n → g.testBit k = g'.testBit k) → lfsrStep s g n = lfsrStep s g' n

/-- The step is a bijection of `0 .. 2^n − 1`, with the inverse 41_lfsr.md R83 writes (the spec marks it derived). -/
def Obligations.LfsrStepIsInvertible : Prop :=
  ∀ g n : Nat, 1 ≤ n →
    (∀ s, s < 2 ^ n →
      let ns := (lfsrStep s g n).2
      let fb := ns.testBit 0
      ns < 2 ^ n ∧
        s = ((ns ^^^ (if fb then taps g n else 0)) >>> 1) ||| (if fb then 1 <<< (n - 1) else 0)) ∧
    ∀ m, m < 2 ^ n → ∃ s, s < 2 ^ n ∧ (lfsrStep s g n).2 = m

/-- Every state lies on a cycle: stepping from any state returns to it after at least 1 and at most `2^n` steps, and state 0
is a cycle of length 1 (41_lfsr.md R83, which the spec marks derived). -/
def Obligations.EveryLfsrStateReturns : Prop :=
  ∀ g n s : Nat, 1 ≤ n → s < 2 ^ n →
    (∃ t, 1 ≤ t ∧ t ≤ 2 ^ n ∧ lfsrIterate g n t s = s) ∧ (lfsrStep 0 g n).2 = 0

/-- `WIDE_STATE = keep_verbatim` (41_lfsr.md R85; 00_scope.md R8): `LFSR.INIT` and `LFSR.SET` store a value of any width
unchanged, `LFSR.GET` returns it, and a step acts on its low `n` bits; on values below `2^n` the two switch values agree. -/
def Obligations.KeepVerbatimStoresWideStates : Prop :=
  ∀ cfg : Config, cfg = { switches with wideState := .keepVerbatim } →
    (∀ (g n seed : Nat) (s : State), 1 ≤ n →
      execWith cfg (.lfsrInit g n seed) s =
        .next (respond (.ok []) { s with l := { valid := true, n := n, g := g % 2 ^ (n + 1), r := seed } })) ∧
    (∀ (v : Nat) (s : State), s.l.valid = true →
      execWith cfg (.lfsrSet v) s = .next (respond (.ok []) { s with l := { s.l with r := v } })) ∧
    (∀ s : State, s.l.valid = true → execWith cfg .lfsrGet s = .next (respond (.ok [.nat s.l.r]) s)) ∧
    (∀ (f : Bool) (s : State), execWith cfg (.lfsrStep f) s =
      (if s.l.valid then
        .next (respond
          (.ok (if f then [.bit (lfsrStep (s.l.r % 2 ^ s.l.n) s.l.g s.l.n).1,
                           .nat (lfsrStep (s.l.r % 2 ^ s.l.n) s.l.g s.l.n).2]
                else [.bit (lfsrStep (s.l.r % 2 ^ s.l.n) s.l.g s.l.n).1]))
          { s with l := { s.l with r := (lfsrStep (s.l.r % 2 ^ s.l.n) s.l.g s.l.n).2 } })
       else .next (respond (.fault (.notConfigured .L)) s))) ∧
    (∀ (g n seed : Nat) (s : State), seed < 2 ^ n →
      execWith cfg (.lfsrInit g n seed) s = exec (.lfsrInit g n seed) s) ∧
    ∀ (v : Nat) (s : State), v < 2 ^ s.l.n → execWith cfg (.lfsrSet v) s = exec (.lfsrSet v) s

/-! ## The PolyDivider unit -/

/-- `DIV.INIT g, p` with `p ≥ 1` configures slot `D`, whatever it held: the operands, the register 0; and nothing else
changes (42_poly_divider.md R88; 10_state.md R29; the refusal of `p = 0` is the spec's decision D9, the stored form of `g`
its decision D25). -/
def Obligations.DivInitConfiguresTheSlot : Prop :=
  ∀ (g p : Nat) (s : State), 1 ≤ p →
    Completes (.divInit g p) s [] { s with d := { valid := true, p := p, g := g % 2 ^ (p + 1), r := 0 } }

/-- `DIV.DIVIDE d` on a configured slot with a dividend of at least one bit returns the remainder of `d` by the effective
divisor as `p` bits, and as quotient the `L − 1` bits of the true quotient without its last coefficient; `D.R` holds the
remainder; nothing else changes. Quotient and remainder are those of schoolbook GF(2) long division, not of the model's
loop (42_poly_divider.md R89 with R95, R96, R99, which the spec marks derived, at its decisions D10 and D11). -/
def Obligations.DivDivideReturnsTheGf2Division : Prop :=
  ∀ (d : Bits) (s : State), s.d.valid = true → s.d.Inv → d ≠ [] →
    let g' := effectivePoly s.d.g s.d.p
    Completes (.divDivide d) s
      [.bits (toBits (polyQuot (fromBits d) g' s.d.p / 2) (d.length - 1)),
       .bits (toBits (polyMod (fromBits d) g' s.d.p) s.d.p)]
      { s with d := { s.d with r := polyMod (fromBits d) g' s.d.p } }

/-- `DIV.QUOT d` and `DIV.REM d` return the same division's quotient and remainder as integers, with the same register
effect; and both fault exactly when `DIV.DIVIDE d` does, with the same fault (42_poly_divider.md R90, R91;
60_exceptions.md R131, which the spec marks derived). -/
def Obligations.DivQuotAndDivRemReturnTheIntegers : Prop :=
  (∀ (d : Bits) (s : State), s.d.valid = true → s.d.Inv → d ≠ [] →
    let g' := effectivePoly s.d.g s.d.p
    let t := { s with d := { s.d with r := polyMod (fromBits d) g' s.d.p } }
    Completes (.divQuot d) s [.nat (polyQuot (fromBits d) g' s.d.p / 2)] t ∧
    Completes (.divRem d) s [.nat (polyMod (fromBits d) g' s.d.p)] t) ∧
  ∀ (d : Bits) (s : State) (f : FaultStatus),
    (Faults (.divQuot d) s f ↔ Faults (.divDivide d) s f) ∧ (Faults (.divRem d) s f ↔ Faults (.divDivide d) s f)

/-- One iteration of the divider: `((2·r) mod 2^p) ^ (top·TAPS) ^ d_j`, which is `(x·r + d_j) mod g'`
(42_poly_divider.md R94, which the spec marks derived, at its decision D10). -/
def Obligations.DividerIterationIsItsClosedForm : Prop :=
  ∀ (r g p : Nat) (b : Bool), 1 ≤ p → r < 2 ^ p →
    divStep switches g p r b = ((2 * r) % 2 ^ p) ^^^ (if r.testBit (p - 1) then taps g p else 0) ^^^ b.toNat ∧
    divStep switches g p r b = polyMod (2 * r + b.toNat) (effectivePoly g p) p

/-- What a division computes (42_poly_divider.md R95, which the spec marks derived, at its decision D10): (a) the register
ends as the GF(2) remainder of the dividend by the effective divisor, of degree below `p`; (b) the `top` bits are the true
quotient; (c) the first `min(p, L)` of them are 0; (d) dividend = quotient · divisor + remainder. -/
def Obligations.DivisionLoopIsLongDivision : Prop :=
  ∀ (g p : Nat) (d : Bits), 1 ≤ p →
    let g' := effectivePoly g p
    let R := (division switches g p d).2
    let tops := divTops switches g p 0 d
    (R = polyMod (fromBits d) g' p ∧ R < 2 ^ p) ∧
    fromBits tops = polyQuot (fromBits d) g' p ∧
    (∀ j, j < min p d.length → bitAt tops j = false) ∧
    fromBits d = clMul (fromBits tops) g' ^^^ R

/-- The quotient returned is the true quotient without its `x^0` coefficient, which was the dropped last candidate; the
identity that holds is `(2·from_bits(quotient) + top_(L−1))·g' + remainder = d`; and the source's identity without the
dropped bit fails for the divisor itself as dividend (42_poly_divider.md R96, which the spec marks derived, at its decision
D11). -/
def Obligations.QuotientIsTheTrueQuotientHalved : Prop :=
  (∀ (g p : Nat) (d : Bits), 1 ≤ p → d ≠ [] →
    let g' := effectivePoly g p
    let Q := (division switches g p d).1
    let R := (division switches g p d).2
    let last := bitAt (divTops switches g p 0 d) (d.length - 1)
    Q.length = d.length - 1 ∧
    fromBits Q = polyQuot (fromBits d) g' p / 2 ∧
    clMul (2 * fromBits Q + last.toNat) g' ^^^ R = fromBits d) ∧
  division switches 0b100011 5 (toBits 0b100011 6) = (zeros 5, 0) ∧
  clMul 0 0b100011 ^^^ 0 ≠ 0b100011

/-- A dividend no longer than the degree is its own remainder, with a quotient of zeros; leading zeros of a dividend change
no remainder and put as many zeros in front of the quotient (42_poly_divider.md R97, which the spec marks derived). -/
def Obligations.ShortDividendsAndLeadingZeros : Prop :=
  (∀ (g p : Nat) (d : Bits), 1 ≤ p → d ≠ [] → d.length ≤ p →
    (division switches g p d).1 = zeros (d.length - 1) ∧
    toBits (division switches g p d).2 p = zeros (p - d.length) ++ d) ∧
  ∀ (g p k : Nat) (d : Bits), 1 ≤ p → d ≠ [] →
    (division switches g p (zeros k ++ d)).1 = zeros k ++ (division switches g p d).1 ∧
    (division switches g p (zeros k ++ d)).2 = (division switches g p d).2

/-- Corner cases of a division (42_poly_divider.md R98, which the spec marks derived): for `p = 1` the remainder is the
parity of the dividend; the effective divisor as dividend leaves remainder 0; a polynomial that breaks the invariant
divides as its effective polynomial. -/
def Obligations.DivisionCornerCases : Prop :=
  (∀ (g : Nat) (d : Bits), (division switches g 1 d).2 = d.count true % 2) ∧
  (∀ g p : Nat, 1 ≤ p → (division switches g p (toBits (effectivePoly g p) (p + 1))).2 = 0) ∧
  ∀ (g p : Nat) (d : Bits), 1 ≤ p → division switches g p d = division switches (effectivePoly g p) p d

/-- `DIV_ORDER = inject_then_clock`, the literal order of the source (42_poly_divider.md R100, which the spec marks
derived): for `p ≥ 2` the register without its bit 0 is the remainder by `h`, a polynomial of degree `p − 1`, its bit 0 is
the last `top`, and the `top` bits are the quotient by `h`; for `p = 1` the two orders coincide. -/
def Obligations.InjectThenClockDividesByAnotherPolynomial : Prop :=
  let lit : Config := { switches with divOrder := .injectThenClock }
  (∀ (g p : Nat) (d : Bits), 2 ≤ p → d ≠ [] →
    let h := 2 ^ (p - 1) + 2 * ((g % 2 ^ p) / 4) + (if g.testBit 1 then 0 else 1)
    let R := (division lit g p d).2
    let tops := divTops lit g p 0 d
    R >>> 1 = polyMod (fromBits d) h (p - 1) ∧
    R.testBit 0 = bitAt tops (d.length - 1) ∧
    fromBits tops = polyQuot (fromBits d) h (p - 1)) ∧
  ∀ (g : Nat) (d : Bits), division lit g 1 d = division switches g 1 d

/-- `Q_TAP = next_top` (42_poly_divider.md R101, which the spec marks derived): the quotient returned is the true quotient,
so `from_bits(quotient)·g' + remainder = d`; the remainder is the same; and for `p ≥ 2` the candidate of an iteration is
the output bit of its LFSR step. -/
def Obligations.NextTopReturnsTheTrueQuotient : Prop :=
  let nxt : Config := { switches with qTap := .nextTop }
  (∀ (g p : Nat) (d : Bits), 1 ≤ p → d ≠ [] →
    let g' := effectivePoly g p
    fromBits (division nxt g p d).1 = polyQuot (fromBits d) g' p ∧
    (division nxt g p d).1.length = d.length - 1 ∧
    (division nxt g p d).2 = (division switches g p d).2 ∧
    clMul (fromBits (division nxt g p d).1) g' ^^^ (division nxt g p d).2 = fromBits d) ∧
  ∀ (r g p : Nat) (b : Bool), 2 ≤ p → r < 2 ^ p →
    quotientCandidate nxt.qTap r (divStep nxt g p r b) p = (lfsrStep r g p).1

/-- Every division and every codec operation begins by writing 0 to its register: the register ends where the division
loop from 0 ends, and the operation answers the same and leaves the same state whatever its register held; where it faults
it faults so on either, and a fault resets nothing. `L.R` has no such reset: no operation of the other slots changes it,
and `LFSR.GET` and the faulting operations of its own do not either. -/
def Obligations.DivisionsStartFromAClearedRegister : Prop :=
  (∀ (d : Bits) (s : State) (v : Nat) (i : Instr), i = .divDivide d ∨ i = .divQuot d ∨ i = .divRem d →
    (∃ t, exec i s = .next t ∧ exec i { s with d := { s.d with r := v } } = .next t ∧
      t.d = { s.d with r := (divLoop switches s.d.g s.d.p 0 d).2 }) ∨
    (∃ f, Faults i s f ∧ Faults i { s with d := { s.d with r := v } } f)) ∧
  (∀ (payload : Items) (w : Nat) (s : State) (v : Nat),
    (∃ t, exec (.crcEncode payload w) s = .next t ∧ exec (.crcEncode payload w) { s with c := { s.c with r := v } } = .next t ∧
      t.c = { s.c with r := (divLoop switches s.c.g s.c.degree 0 (flatten payload w ++ zeros s.c.degree)).2 }) ∨
    (∃ f, Faults (.crcEncode payload w) s f ∧ Faults (.crcEncode payload w) { s with c := { s.c with r := v } } f)) ∧
  (∀ (received : Bits) (w : Nat) (s : State) (v : Nat),
    (∃ t, exec (.crcDecode received w) s = .next t ∧ exec (.crcDecode received w) { s with c := { s.c with r := v } } = .next t ∧
      t.c = { s.c with r := (divLoop switches s.c.g s.c.degree 0 received).2 }) ∨
    (∃ f, Faults (.crcDecode received w) s f ∧ Faults (.crcDecode received w) { s with c := { s.c with r := v } } f)) ∧
  ∀ (i : Instr) (s t : State), exec i s = .next t →
    (slotOf i ≠ .L ∨ i = .lfsrGet ∨ (∃ f, t.responses = s.responses ++ [.fault f])) → t.l.r = s.l.r

/-! ## The CRC Codec unit -/

/-- `CRC.INIT g, n` with `g ≥ 2` configures slot `C`, whatever it held: `C.CRCLEN` is the position of the highest set bit of
`g` plus 1, the register is 0; nothing else changes (43_crc_codec.md R103; 10_state.md R29; the refusal of `g < 2` is the
spec's decision D9). -/
def Obligations.CrcInitConfiguresTheSlot : Prop :=
  ∀ (g nitems k : Nat) (s : State), 1 ≤ k → g.testBit k = true → (∀ j, k < j → g.testBit j = false) →
    Completes (.crcInit g nitems) s []
      { s with c := { valid := true, g := g, nitems := nitems, crcLen := k + 1, r := 0 } }

/-- `crc_len` is the bit-length of the generator, its highest set bit's position plus 1, and the number of check bits that
`CRC.ENCODE` appends is one less, the generator's degree: 17 and 16 for `0x18005`, 4 and 3 for `0b1011`. -/
def Obligations.CrcLenIsTheGeneratorsBitLength : Prop :=
  (∀ g k : Nat, g.testBit k = true → (∀ j, k < j → g.testBit j = false) → bitlen g = k + 1) ∧
  (∀ (g nitems : Nat) (s t : State), 2 ≤ g → exec (.crcInit g nitems) s = .next t →
    t.c.crcLen = bitlen g ∧ 2 ^ t.c.degree ≤ g ∧ g < 2 ^ (t.c.degree + 1)) ∧
  (∀ (g nitems : Nat) (payload : Items) (w : Nat) (s t u : State) (cw : Bits), 2 ≤ g →
    exec (.crcInit g nitems) s = .next t → Completes (.crcEncode payload w) t [.bits cw] u →
      ∃ check : Bits, cw = flatten payload w ++ check ∧ check.length = bitlen g - 1 ∧
        (g = 0x18005 → t.c.crcLen = 17 ∧ check.length = 16) ∧ (g = 0b1011 → t.c.crcLen = 4 ∧ check.length = 3)) ∧
  bitlen 0x18005 = 17 ∧ bitlen 0b1011 = 4

/-- `CRC.ENCODE payload, W` on a configured slot, with a payload that fits, returns the payload's bits followed by the check
bits, which are the remainder of (payload · `x^p`) by the effective generator in `p` bits; `C.R` holds the remainder;
nothing else changes. The remainder is that of schoolbook GF(2) long division (43_crc_codec.md R104, with R107, which the
spec marks derived, at its decision D10; the fault tests are its decision D8). -/
def Obligations.CrcEncodeAppendsTheRemainder : Prop :=
  ∀ (payload : Items) (w : Nat) (s : State), s.c.valid = true → s.c.Inv → 1 ≤ w →
    payload.length = s.c.nitems → (∀ v ∈ payload, v < 2 ^ w) →
      let p := s.c.degree
      let check := polyMod (fromBits (flatten payload w) * 2 ^ p) (effectivePoly s.c.g p) p
      Completes (.crcEncode payload w) s [.bits (flatten payload w ++ toBits check p)]
        { s with c := { s.c with r := check } }

/-- `CRC.DECODE received, W` on a configured slot, with a sequence of the right length, returns the first `NITEMS` groups of
`W` bits as items, and as syndrome the remainder of the ENTIRE sequence by the effective generator; `C.R` holds the
syndrome; nothing else changes (43_crc_codec.md R105, with 42_poly_divider.md R95, which the spec marks derived, at its
decision D10; the fault tests are its decision D8). -/
def Obligations.CrcDecodeReturnsPayloadAndSyndrome : Prop :=
  ∀ (received : Bits) (w : Nat) (s : State), s.c.valid = true → s.c.Inv → 1 ≤ w →
    received.length = s.c.nitems * w + s.c.degree →
      let p := s.c.degree
      let syndrome := polyMod (fromBits received) (effectivePoly s.c.g p) p
      Completes (.crcDecode received w) s
        [.items ((List.range s.c.nitems).map fun k => fromBits ((received.drop (k * w)).take w)), .nat syndrome]
        { s with c := { s.c with r := syndrome } }

/-- The layout of a codeword: `NITEMS·W + p` bits, the payload's bits in front, the check bits behind, most significant
first, and as a polynomial `c(x) = x^p·m(x) + remainder(x)`. -/
def Obligations.CodewordLayout : Prop :=
  ∀ (payload : Items) (w : Nat) (s t : State) (cw : Bits), s.c.valid = true → s.c.Inv →
    Completes (.crcEncode payload w) s [.bits cw] t →
      let p := s.c.degree
      cw.length = s.c.nitems * w + p ∧
      cw.take (s.c.nitems * w) = flatten payload w ∧
      cw.drop (s.c.nitems * w) = toBits t.c.r p ∧
      fromBits cw = (fromBits (flatten payload w) * 2 ^ p) ^^^ t.c.r

/-- The round trip: for every configured codec, every `W ≥ 1` and every payload that fits, decoding the codeword that
`CRC.ENCODE` returned gives the payload and syndrome 0 (43_crc_codec.md R108; the spec marks its scope derived, and this
property is its reason for decision D10). -/
def Obligations.DecodeOfEncodeGivesThePayloadAndSyndromeZero : Prop :=
  ∀ (payload : Items) (w : Nat) (s : State), s.c.valid = true → s.c.Inv → 1 ≤ w →
    payload.length = s.c.nitems → (∀ v ∈ payload, v < 2 ^ w) →
      ∃ (cw : Bits) (t u : State),
        exec (.crcEncode payload w) s = .next t ∧ t.responses = s.responses ++ [.ok [.bits cw]] ∧
        exec (.crcDecode cw w) t = .next u ∧
        u.responses = s.responses ++ [.ok [.bits cw], .ok [.items payload, .nat 0]]

/-- The syndrome is linear in the received bits, so an error pattern shows exactly as its own remainder
(43_crc_codec.md R109, which the spec marks derived). -/
def Obligations.SyndromeIsLinear : Prop :=
  ∀ (c : CrcSlot) (A E : Bits), c.valid = true → c.Inv → A.length = E.length →
    crcDivideRemainder switches c (xorBits A E) = crcDivideRemainder switches c A ^^^ crcDivideRemainder switches c E ∧
    crcDivideRemainder switches c E = polyMod (fromBits E) (effectivePoly c.g c.degree) c.degree

/-- Every single-bit error is detected, for every generator: a codeword that `CRC.ENCODE` returned, with any one bit
inverted, decodes with a nonzero syndrome (43_crc_codec.md R109, which the spec marks derived). -/
def Obligations.EverySingleBitErrorIsDetected : Prop :=
  ∀ (payload : Items) (w : Nat) (s t : State) (cw : Bits) (i : Nat), s.c.valid = true → s.c.Inv →
    Completes (.crcEncode payload w) s [.bits cw] t → i < cw.length →
      ∃ v syndrome u, Completes (.crcDecode (cw.set i (!bitAt cw i)) w) s [.items v, .nat syndrome] u ∧
        errorDetected syndrome = true

/-- No correction: the payload a decode returns is the literal received bits, a function of the first `NITEMS·W` of them
alone; the syndrome, whatever it is, never changes it. -/
def Obligations.DecodedPayloadIsTheLiteralBits : Prop :=
  (∀ (received : Bits) (w : Nat) (s t : State) (v : Items) (syndrome : Nat),
    Completes (.crcDecode received w) s [.items v, .nat syndrome] t →
      v.length = s.c.nitems ∧ flatten v w = received.take (s.c.nitems * w)) ∧
  ∀ (B B' : Bits) (w : Nat) (s t t' : State) (v v' : Items) (y y' : Nat),
    Completes (.crcDecode B w) s [.items v, .nat y] t → Completes (.crcDecode B' w) s [.items v', .nat y'] t' →
      B.take (s.c.nitems * w) = B'.take (s.c.nitems * w) → v = v'

/-- Corner cases of the codec (43_crc_codec.md R113, which the spec marks derived): with no items, `CRC.ENCODE []` returns
`p` zeros, and a decode of `p` bits returns them as the syndrome; an all-zero payload gives an all-zero codeword; leading
zero items leave the check value as it is; the constant term of the generator is never read. -/
def Obligations.CodecCornerCases : Prop :=
  (∀ (w : Nat) (s : State), s.c.valid = true → s.c.Inv → 1 ≤ w → s.c.nitems = 0 →
    ∃ t, Completes (.crcEncode [] w) s [.bits (zeros s.c.degree)] t) ∧
  (∀ (B : Bits) (w : Nat) (s : State), s.c.valid = true → s.c.Inv → 1 ≤ w → s.c.nitems = 0 →
    B.length = s.c.degree → ∃ t, Completes (.crcDecode B w) s [.items [], .nat (fromBits B)] t) ∧
  (∀ (w : Nat) (s : State), s.c.valid = true → s.c.Inv → 1 ≤ w →
    ∃ t, Completes (.crcEncode (List.replicate s.c.nitems 0) w) s [.bits (zeros (s.c.nitems * w + s.c.degree))] t) ∧
  (∀ (c : CrcSlot) (payload : Items) (w k : Nat), c.valid = true → c.Inv →
    crcDivideRemainder switches c (flatten (List.replicate k 0 ++ payload) w ++ zeros c.degree) =
      crcDivideRemainder switches c (flatten payload w ++ zeros c.degree)) ∧
  ∀ (c : CrcSlot) (B : Bits), c.valid = true → c.Inv →
    crcDivideRemainder switches { c with g := c.g ||| 1 } B = crcDivideRemainder switches c B

/-! ## The block, with its inputs as parameters -/

/-- The block's step is a function of the configuration, one transaction and its registers alone, and gives registers, a
response and emitted bits (10_state.md R27): a step of the closed system, at any configuration, is that function on the
oldest transaction, with its outputs collected. At every configuration: a legal word is carried out as the operation it
decodes to, and an illegal one is a fault (60_exceptions.md R120, the spec's decision D4); a fault leaves the registers as
they were and emits nothing (R118, its decisions D13 and D22); `NotConfigured` is raised exactly by an operation other than
an `INIT` on an unconfigured slot (R121, its decision D6); the slots an operation does not work on stay as they are
(10_state.md R14, which the spec marks derived); and only `LFSR.STEPS` emits. The lists the closed system keeps are
log 1. -/
def Obligations.BlockStepTakesItsInputsAsParameters : Prop :=
  (∀ (cfg : Config) (s : State) (t : Transaction) (rest : List Transaction), s.pending = t :: rest →
    let e := transact cfg t s.toBlock
    stepWith cfg s = .next { toBlock := e.block, pending := rest, responses := s.responses ++ [e.response],
                             sink := s.sink ++ e.emitted }) ∧
  (∀ s : State, stepWith switches s = step s) ∧
  ∀ (cfg : Config) (t : Transaction) (k : Block),
    let e := transact cfg t k
    (∀ f, e.response = .fault f → e.block = k ∧ e.emitted = []) ∧
    (∀ r, decode t = .error r → e.response = .fault (.illegalCommand t.word)) ∧
    ∀ i, decode t = .ok i →
      e = operate cfg i k ∧
      (e.response = .fault (.notConfigured (slotOf i)) ↔ isInit i = false ∧ k.slotValid (slotOf i) = false) ∧
      (slotOf i ≠ .L → e.block.l = k.l) ∧ (slotOf i ≠ .D → e.block.d = k.d) ∧ (slotOf i ≠ .C → e.block.c = k.c) ∧
      ((∀ count, i ≠ .lfsrSteps count) → e.emitted = [])
end

