-- ==== Sys2Proof/Laws/Assembler.lean ====
section
/-! SUPPORT. Reading back what is written: digits, and the pieces between commas (30_encoding.md R58). -/

namespace Sys2Proof.Machine

theorem digitValue_digitChar {k : Nat} (h : k < 16) : digitValue k.digitChar = some k := by
  interval_cases k <;> rfl

/-- Every character of a written natural is the character of a digit below the base. -/
theorem eq_digitChar_of_mem_toDigits {b : Nat} (hb : 1 < b) (v : Nat) :
    ∀ c ∈ Nat.toDigits b v, ∃ k < b, c = k.digitChar := by
  induction v using Nat.strongRecOn with
  | ind v ih =>
    intro c hc
    rcases lt_or_ge v b with hv | hv
    · rw [Nat.toDigits_of_lt_base hv] at hc
      exact ⟨v, hv, by simpa using hc⟩
    · rw [Nat.toDigits_of_base_le hb hv, List.mem_append] at hc
      rcases hc with hc | hc
      · exact ih (v / b) (Nat.div_lt_self (by omega) hb) c hc
      · exact ⟨v % b, Nat.mod_lt _ (by omega), by simpa using hc⟩

/-- Reading the digits of two runs is reading the second onto the value of the first. -/
theorem readDigits_append (b acc : Nat) (xs ys : List Char) :
    readDigits b acc (xs ++ ys) = (readDigits b acc xs).bind fun a => readDigits b a ys := by
  induction xs generalizing acc with
  | nil => simp [readDigits]
  | cons c cs ih =>
    simp only [List.cons_append, readDigits]
    cases digitValue c with
    | none => rfl
    | some k => by_cases hk : k < b <;> simp [hk, ih]

/-- The digits of a natural read back as it, in every base up to sixteen. -/
theorem readDigits_toDigits {b : Nat} (hb : 1 < b) (hb16 : b ≤ 16) (v : Nat) :
    readDigits b 0 (Nat.toDigits b v) = some v := by
  induction v using Nat.strongRecOn with
  | ind v ih =>
    rcases lt_or_ge v b with hv | hv
    · rw [Nat.toDigits_of_lt_base hv]
      simp [readDigits, digitValue_digitChar (show v < 16 by omega), hv]
    · have hm : v % b < b := Nat.mod_lt _ (by omega)
      rw [Nat.toDigits_of_base_le hb hv, readDigits_append, ih _ (Nat.div_lt_self (by omega) hb)]
      simp [readDigits, digitValue_digitChar (show v % b < 16 by omega), hm, Nat.div_add_mod]

/-- A piece without brackets and commas is passed over whole, at any depth. -/
theorem splitCommas_plain {p : List Char} (hp : ∀ c ∈ p, c ≠ '[' ∧ c ≠ ']' ∧ c ≠ ',') (depth : Nat)
    (cur rest : List Char) : splitCommas depth cur (p ++ rest) = splitCommas depth (p.reverse ++ cur) rest := by
  induction p generalizing cur with
  | nil => rfl
  | cons c p ih =>
    obtain ⟨h1, h2, h3⟩ := hp c (by simp)
    simp [splitCommas, h1, h2, h3, ih fun c hc => hp c (by simp [hc])]

/-- Inside brackets a comma is passed over too. -/
theorem splitCommas_inside {p : List Char} (hp : ∀ c ∈ p, c ≠ '[' ∧ c ≠ ']') (depth : Nat) (cur rest : List Char) :
    splitCommas (depth + 1) cur (p ++ rest) = splitCommas (depth + 1) (p.reverse ++ cur) rest := by
  induction p generalizing cur with
  | nil => rfl
  | cons c p ih =>
    obtain ⟨h1, h2⟩ := hp c (by simp)
    simp [splitCommas, h1, h2, ih fun c hc => hp c (by simp [hc])]

/-- A bracketed sequence is one piece. -/
theorem splitCommas_bracketed {p : List Char} (hp : ∀ c ∈ p, c ≠ '[' ∧ c ≠ ']') (cur rest : List Char) :
    splitCommas 0 cur ('[' :: p ++ ']' :: rest) = splitCommas 0 (']' :: p.reverse ++ '[' :: cur) rest := by
  simp only [List.cons_append, splitCommas, if_true]
  rw [splitCommas_inside hp]
  simp [splitCommas]

/-- A comma outside brackets ends the piece. -/
theorem splitCommas_comma (cur rest : List Char) :
    splitCommas 0 cur (',' :: rest) = cur.reverse :: splitCommas 0 [] rest := by
  simp [splitCommas]

end Sys2Proof.Machine
end

