-- ==== Sys2Proof/Laws/Bits.lean ====
section
/-! SUPPORT. The small lemmas of bit sequences: lengths, positions, weights. -/

namespace Sys2Proof.Machine

@[simp] theorem toBits_length (v N : Nat) : (toBits v N).length = N := by simp [toBits]

@[simp] theorem zeros_length (k : Nat) : (zeros k).length = k := by simp [zeros]

/-- Position `i` of `to_bits(v, N)` is the bit of weight `2^(N−1−i)`; there is no position beyond `N − 1`. -/
theorem bitAt_toBits (v N i : Nat) : bitAt (toBits v N) i = (decide (i < N) && v.testBit (N - 1 - i)) := by
  by_cases h : i < N <;> simp [bitAt, toBits, List.getD_eq_getElem?_getD, h]

@[simp] theorem fromBits_nil : fromBits [] = 0 := rfl

@[simp] theorem fromBits_cons (b : Bool) (B : Bits) : fromBits (b :: B) = b.toNat * 2 ^ B.length + fromBits B := rfl

theorem fromBits_lt (B : Bits) : fromBits B < 2 ^ B.length := by
  induction B with
  | nil => simp
  | cons b B ih =>
    have hb : b.toNat ≤ 1 := by cases b <;> simp
    have := Nat.mul_le_mul_right (2 ^ B.length) hb
    simp only [fromBits_cons, List.length_cons, pow_succ]
    omega

theorem fromBits_append (A B : Bits) : fromBits (A ++ B) = fromBits A * 2 ^ B.length + fromBits B := by
  induction A with
  | nil => simp
  | cons b A ih => simp [ih, pow_add]; ring

@[simp] theorem fromBits_zeros (k : Nat) : fromBits (zeros k) = 0 := by
  induction k with
  | zero => rfl
  | succ k ih => simpa [zeros, List.replicate_succ] using ih

/-- The bit of weight `2^k` of `from_bits(B)` stands at position `len(B) − 1 − k`. -/
theorem testBit_fromBits (B : Bits) (k : Nat) :
    (fromBits B).testBit k = (decide (k < B.length) && bitAt B (B.length - 1 - k)) := by
  induction B with
  | nil => simp
  | cons b B ih =>
    rw [fromBits_cons, Nat.mul_comm, Nat.testBit_two_pow_mul_add _ (fromBits_lt B)]
    by_cases h : k < B.length
    · have h1 : B.length - k = (B.length - 1 - k) + 1 := by omega
      simp [h, ih, bitAt, Nat.lt_succ_of_lt h, h1]
    · rcases Nat.lt_or_ge B.length k with h2 | h2
      · have : ¬ (k < B.length + 1) := by omega
        obtain ⟨m, rfl⟩ : ∃ m, k = B.length + 1 + m := ⟨k - (B.length + 1), by omega⟩
        cases b <;> simp [Nat.add_assoc, Nat.add_comm 1, Nat.testBit_succ]
      · have : k = B.length := by omega
        subst this
        cases b <;> simp [bitAt]

/-- Two sequences of one length with the same bit at every position are equal. -/
theorem eq_of_bitAt_eq {A B : Bits} (hl : A.length = B.length) (h : ∀ i, i < A.length → bitAt A i = bitAt B i) :
    A = B := by
  refine List.ext_getElem hl fun i h1 h2 => ?_
  simpa [bitAt, List.getD_eq_getElem?_getD, h1, h2] using h i h1

@[simp] theorem flatten_nil (w : Nat) : flatten [] w = [] := rfl

@[simp] theorem flatten_cons (v : Nat) (payload : Items) (w : Nat) :
    flatten (v :: payload) w = toBits v w ++ flatten payload w := rfl

@[simp] theorem flatten_length (payload : Items) (w : Nat) : (flatten payload w).length = payload.length * w := by
  induction payload with
  | nil => simp
  | cons v payload ih => simp [ih, Nat.succ_mul, Nat.add_comm]

/-- Overwriting exactly the tail of a sequence replaces it. -/
theorem memWrite_tail (A Z B : Bits) (h : Z.length = B.length) : memWrite (A ++ Z) A.length B = A ++ B := by
  simp [memWrite, ← h]

/-- Reading inside the front part of a sequence does not see what stands behind it. -/
theorem memRead_append_left (A B : Bits) (i k : Nat) (h : i + k ≤ A.length) : memRead (A ++ B) i k = memRead A i k := by
  simp only [memRead]
  rw [List.drop_append_of_le_length (by omega), List.take_append_of_le_length (by simp; omega)]

/-- `bitlen(v)` is the number of bits of `v`. -/
theorem lt_two_pow_iff_bitlen_le (v k : Nat) : v < 2 ^ k ↔ bitlen v ≤ k := by
  unfold bitlen
  split
  · subst_vars; simp
  · rw [← Nat.log2_lt ‹_›]; omega

end Sys2Proof.Machine
end

