-- ==== Sys2Proof/Laws/Lfsr.lean ====
section
/-! SUPPORT. What the LFSR step is, bit by bit, and what a run of steps is. -/

namespace Sys2Proof.Machine

/-- The sequence a step leaves, as written in 41_lfsr.md R79. -/
def steppedBits (s g n : Nat) : Bits :=
  (List.range n).map fun i =>
    if i = n - 1 then feedbackBit (toBits s n)
    else if bitAt (toBits g (n + 1)) (i + 1) then bitAt (toBits s n) (i + 1) ^^ feedbackBit (toBits s n)
    else bitAt (toBits (2 * s) n) i

theorem lfsrStep_eq (s g n : Nat) :
    lfsrStep s g n = (bitAt (steppedBits s g n) 0, fromBits (steppedBits s g n)) := rfl

@[simp] theorem steppedBits_length (s g n : Nat) : (steppedBits s g n).length = n := by simp [steppedBits]

theorem feedbackBit_toBits (s n : Nat) (hn : 1 ≤ n) : feedbackBit (toBits s n) = s.testBit (n - 1) := by
  simp [feedbackBit, bitAt_toBits]; omega

/-- The new state fits the register. -/
theorem lfsrStep_state_lt (s g n : Nat) : (lfsrStep s g n).2 < 2 ^ n := by
  simpa [lfsrStep_eq] using fromBits_lt (steppedBits s g n)

/-- The new state, bit by bit: the feedback bit enters at weight 0, and every other bit comes from one place below, with
the feedback bit XORed in where the polynomial has its coefficient. -/
theorem testBit_lfsrStep (s g n k : Nat) :
    (lfsrStep s g n).2.testBit k =
      (decide (k < n) &&
        if k = 0 then s.testBit (n - 1) else s.testBit (k - 1) ^^ (g.testBit k && s.testBit (n - 1))) := by
  rw [lfsrStep_eq, testBit_fromBits]
  by_cases hk : k < n
  · have hn : 1 ≤ n := by omega
    have hi : n - 1 - k < n := by omega
    simp only [steppedBits_length, hk, decide_true, Bool.true_and]
    simp only [bitAt, steppedBits, List.getD_eq_getElem?_getD, List.getElem?_map, List.getElem?_range hi,
      Option.map_some, Option.getD_some, feedbackBit_toBits s n hn]
    by_cases h0 : k = 0
    · subst h0; simp
    · have h1 : ¬ (n - 1 - k = n - 1) := by omega
      have e1 : n + 1 - 1 - (n - 1 - k + 1) = k := by omega
      have e2 : n - 1 - (n - 1 - k + 1) = k - 1 := by omega
      have e3 : n - 1 - (n - 1 - k) = k := by omega
      have l1 : n - 1 - k + 1 < n + 1 := by omega
      have l2 : n - 1 - k + 1 < n := by omega
      simp only [h1, if_false, h0, ← List.getD_eq_getElem?_getD, ← bitAt.eq_1, bitAt_toBits, e1, e2, e3, l1, l2, hi,
        decide_true, Bool.true_and]
      have e4 : (2 * s).testBit k = s.testBit (k - 1) := by
        obtain ⟨j, rfl⟩ : ∃ j, k = j + 1 := ⟨k - 1, by omega⟩
        simp [Nat.testBit_succ]
      rw [e4]
      cases g.testBit k <;> simp
  · simp [hk]

/-- The output bit is the top bit of the new state. -/
theorem lfsrStep_out (s g n : Nat) (hn : 1 ≤ n) : (lfsrStep s g n).1 = (lfsrStep s g n).2.testBit (n - 1) := by
  have h : n - 1 < n := by omega
  simp [lfsrStep_eq, testBit_fromBits, h]

/-- A run of steps: one output bit for each, and the state of the iterated step at the end. -/
theorem lfsrRun_length (count s g n : Nat) : (lfsrRun count s g n).1.length = count := by
  induction count generalizing s with
  | zero => rfl
  | succ count ih => simp [lfsrRun, ih]

theorem lfsrRun_state (count s g n : Nat) : (lfsrRun count s g n).2 = lfsrIterate g n count s := by
  induction count generalizing s with
  | zero => rfl
  | succ count ih => simp [lfsrRun, lfsrIterate, ih]

end Sys2Proof.Machine
end

