-- ==== Sys2Proof/Laws/Division.lean ====
section
/-! SUPPORT. What the division loop is: a fold of its iteration, with the `top` bits as quotient candidates. -/

namespace Sys2Proof.Machine

/-- Replacing bit 0, bit by bit. -/
theorem testBit_injectBit0 (r : Nat) (b : Bool) (k : Nat) :
    (injectBit0 r b).testBit k = if k = 0 then b else r.testBit k := by
  have e : injectBit0 r b = 2 * (r / 2) + b.toNat := by unfold injectBit0; omega
  have hb : b.toNat < 2 := by cases b <;> simp
  rw [e]
  cases k with
  | zero => cases b <;> simp
  | succ k =>
    have e2 : (2 * (r / 2) + b.toNat) / 2 = r / 2 := by omega
    simp [Nat.testBit_succ, e2]

/-- The register of a division is the iteration folded over the dividend. -/
theorem divLoop_register (cfg : Config) (g p r : Nat) (d : Bits) :
    (divLoop cfg g p r d).2 = d.foldl (divStep cfg g p) r := by
  induction d generalizing r with
  | nil => rfl
  | cons b d ih => simp [divLoop, ih]

@[simp] theorem divTops_length (cfg : Config) (g p r : Nat) (d : Bits) : (divTops cfg g p r d).length = d.length := by
  induction d generalizing r with
  | nil => rfl
  | cons b d ih => simp [divTops, ih]

/-- One quotient bit for each iteration but the last. -/
theorem divLoop_quotient_length (cfg : Config) (g p r : Nat) (d : Bits) :
    (divLoop cfg g p r d).1.length = d.length - 1 := by
  induction d generalizing r with
  | nil => rfl
  | cons b d ih =>
    cases d with
    | nil => rfl
    | cons b' d => simpa [divLoop] using ih (divStep cfg g p r b)

/-- With `Q_TAP = pre_top` the quotient is the `top` bits but the last. -/
theorem divLoop_quotient_preTop (cfg : Config) (h : cfg.qTap = .preTop) (g p r : Nat) (d : Bits) :
    (divLoop cfg g p r d).1 = (divTops cfg g p r d).dropLast := by
  induction d generalizing r with
  | nil => rfl
  | cons b d ih =>
    cases d with
    | nil => rfl
    | cons b' d =>
      have := ih (divStep cfg g p r b)
      simpa [divLoop, divTops, h, quotientCandidate] using this

/-- The loop over a concatenation goes on from the register the first part leaves. -/
theorem divLoop_register_append (cfg : Config) (g p r : Nat) (A B : Bits) :
    (divLoop cfg g p r (A ++ B)).2 = (divLoop cfg g p (divLoop cfg g p r A).2 B).2 := by
  simp [divLoop_register, List.foldl_append]

end Sys2Proof.Machine
end

