-- ==== Sys2Proof/Laws/Gf2.lean ====
section
/-! SUPPORT. The carry-less product is linear in its first argument, and schoolbook long division by a monic polynomial is
the one division with remainder: existence (`longDiv_spec`) and uniqueness (`longDiv_unique`). -/

namespace Sys2Proof.Machine

/-- A term XORed into both sides of an XOR cancels. -/
theorem xor_cancel_right (x y z : Nat) : x ^^^ y ^^^ (z ^^^ y) = x ^^^ z := by
  rw [Nat.xor_comm z y, ← Nat.xor_assoc, Nat.xor_assoc x y y, Nat.xor_self, Nat.xor_zero]

/-- The product over the bits of weight below `2^N`. -/
def clMulBelow (N a b : Nat) : Nat :=
  (List.range N).foldl (fun acc k => if a.testBit k then acc ^^^ (b <<< k) else acc) 0

theorem clMul_eq_below (a b : Nat) : clMul a b = clMulBelow (bitlen a) a b := rfl

@[simp] theorem clMulBelow_zero (a b : Nat) : clMulBelow 0 a b = 0 := rfl

theorem clMulBelow_succ (N a b : Nat) :
    clMulBelow (N + 1) a b = clMulBelow N a b ^^^ (if a.testBit N then b <<< N else 0) := by
  simp only [clMulBelow, List.range_succ, List.foldl_append, List.foldl_cons, List.foldl_nil]
  split <;> simp

/-- Bits at and above the bit-length are 0. -/
theorem testBit_of_bitlen_le {a k : Nat} (h : bitlen a ≤ k) : a.testBit k = false :=
  Nat.testBit_lt_two_pow ((lt_two_pow_iff_bitlen_le a k).2 h)

theorem clMulBelow_of_bitlen_le {a N : Nat} (b : Nat) (h : bitlen a ≤ N) : clMulBelow N a b = clMul a b := by
  rw [clMul_eq_below]
  induction N, h using Nat.le_induction with
  | base => rfl
  | succ N hN ih => simp [clMulBelow_succ, ih, testBit_of_bitlen_le hN]

theorem clMulBelow_xor (N a c b : Nat) : clMulBelow N (a ^^^ c) b = clMulBelow N a b ^^^ clMulBelow N c b := by
  induction N with
  | zero => simp
  | succ N ih =>
    simp only [clMulBelow_succ, ih, Nat.testBit_xor]
    cases a.testBit N <;> cases c.testBit N <;> simp [xor_cancel_right] <;> ac_rfl

/-- The product distributes over XOR of the first factor. -/
theorem clMul_xor (a c b : Nat) : clMul (a ^^^ c) b = clMul a b ^^^ clMul c b := by
  let N := max (bitlen (a ^^^ c)) (max (bitlen a) (bitlen c))
  rw [← clMulBelow_of_bitlen_le b (show bitlen (a ^^^ c) ≤ N by omega),
    ← clMulBelow_of_bitlen_le b (show bitlen a ≤ N by omega),
    ← clMulBelow_of_bitlen_le b (show bitlen c ≤ N by omega), clMulBelow_xor]

@[simp] theorem clMul_zero (b : Nat) : clMul 0 b = 0 := rfl

/-- A single power of `x` shifts. -/
theorem clMul_two_pow (k b : Nat) : clMul (2 ^ k) b = b <<< k := by
  have h0 : ∀ N, N ≤ k → clMulBelow N (2 ^ k) b = 0 := by
    intro N hN
    induction N with
    | zero => rfl
    | succ N ih =>
      have : (2 ^ k).testBit N = false := by simp [Nat.testBit_two_pow]; omega
      simp [clMulBelow_succ, ih (by omega), this]
  rw [← clMulBelow_of_bitlen_le b (show bitlen (2 ^ k) ≤ k + 1 from
    (lt_two_pow_iff_bitlen_le _ _).1 (Nat.pow_lt_pow_right (by omega) (by omega))), clMulBelow_succ, h0 k le_rfl]
  simp

/-- The degree of a partial product. -/
theorem clMulBelow_lt {b p : Nat} (hb : b < 2 ^ (p + 1)) (N a : Nat) : clMulBelow N a b < 2 ^ (N + p) := by
  induction N with
  | zero => simp
  | succ N ih =>
    rw [clMulBelow_succ]
    refine Nat.xor_lt_two_pow (lt_of_lt_of_le ih (Nat.pow_le_pow_right (by omega) (by omega))) ?_
    split
    · rw [Nat.shiftLeft_eq]
      calc b * 2 ^ N < 2 ^ (p + 1) * 2 ^ N := Nat.mul_lt_mul_of_pos_right hb (by positivity)
        _ = 2 ^ (N + 1 + p) := by rw [← pow_add]; congr 1; omega
    · positivity

/-- A nonzero multiple of a polynomial of degree `p` has degree at least `p`. -/
theorem two_pow_le_clMul {b p q : Nat} (hp : b.testBit p = true) (hb : b < 2 ^ (p + 1)) (hq : q ≠ 0) :
    2 ^ p ≤ clMul q b := by
  have hlen : bitlen q = q.log2 + 1 := by simp [bitlen, hq]
  have htop : (clMul q b).testBit (q.log2 + p) = true := by
    rw [clMul_eq_below, hlen, clMulBelow_succ, Nat.testBit_log2 hq, Nat.testBit_xor,
      Nat.testBit_lt_two_pow (clMulBelow_lt hb q.log2 q)]
    simp [Nat.testBit_shiftLeft, hp]
  exact le_trans (Nat.pow_le_pow_right (by omega) (by omega)) (Nat.ge_two_pow_of_testBit htop)

/-- One pass of the long division takes the top bit off. -/
theorem bitlen_xor_shift_lt {a b p : Nat} (hp : b.testBit p = true) (hb : b < 2 ^ (p + 1)) (h : p < bitlen a) :
    bitlen (a ^^^ (b <<< (bitlen a - 1 - p))) < bitlen a := by
  have ha : a ≠ 0 := by rintro rfl; simp [bitlen] at h
  have hlen : bitlen a = a.log2 + 1 := by simp [bitlen, ha]
  have key : a ^^^ (b <<< (bitlen a - 1 - p)) < 2 ^ a.log2 := by
    refine Nat.lt_pow_two_of_testBit _ fun i hi => ?_
    rw [Nat.testBit_xor, Nat.testBit_shiftLeft]
    rcases Nat.eq_or_lt_of_le hi with rfl | hi
    · have e : a.log2 - (bitlen a - 1 - p) = p := by omega
      have l : bitlen a - 1 - p ≤ a.log2 := by omega
      simp [Nat.testBit_log2 ha, e, l, hp]
    · have e : b.testBit (i - (bitlen a - 1 - p)) = false :=
        Nat.testBit_lt_two_pow (lt_of_lt_of_le hb (Nat.pow_le_pow_right (by omega) (by omega)))
      rw [testBit_of_bitlen_le (show bitlen a ≤ i by omega), e]
      simp
  have := (lt_two_pow_iff_bitlen_le _ _).1 key
  omega

/-- The passes keep (quotient so far · divisor) + (what is left), and end below `2^p`. -/
theorem longDivLoop_spec {b p : Nat} (hp : b.testBit p = true) (hb : b < 2 ^ (p + 1)) (fuel a q : Nat)
    (hf : bitlen a ≤ fuel) (hq : ∀ j, j + p < bitlen a → q.testBit j = false) :
    clMul (longDivLoop fuel a b p q).1 b ^^^ (longDivLoop fuel a b p q).2 = clMul q b ^^^ a ∧
      (longDivLoop fuel a b p q).2 < 2 ^ p := by
  induction fuel generalizing a q with
  | zero =>
    refine ⟨rfl, (lt_two_pow_iff_bitlen_le _ _).2 ?_⟩
    simp only [longDivLoop]; omega
  | succ fuel ih =>
    by_cases h : p < bitlen a
    · have hlt := bitlen_xor_shift_lt hp hb h
      have hqk : q ||| (1 <<< (bitlen a - 1 - p)) = q ^^^ 2 ^ (bitlen a - 1 - p) := by
        refine Nat.eq_of_testBit_eq fun i => ?_
        by_cases hi : i = bitlen a - 1 - p
        · subst hi; simp [Nat.shiftLeft_eq, hq (bitlen a - 1 - p) (by omega)]
        · have : ¬ (bitlen a - 1 - p = i) := fun e => hi e.symm
          simp [Nat.shiftLeft_eq, this]
      have := ih (a ^^^ (b <<< (bitlen a - 1 - p))) (q ||| (1 <<< (bitlen a - 1 - p))) (by omega) (by
        intro j hj
        have hne : ¬ (bitlen a - 1 - p = j) := by omega
        rw [hqk, Nat.testBit_xor, Nat.testBit_two_pow, hq j (by omega)]
        simp [hne])
      simp only [longDivLoop, h, if_true]
      refine ⟨this.1.trans ?_, this.2⟩
      rw [hqk, clMul_xor, clMul_two_pow, xor_cancel_right]
    · simp only [longDivLoop, h, if_false]
      exact ⟨trivial, (lt_two_pow_iff_bitlen_le _ _).2 (by omega)⟩

/-- Existence: dividend = quotient · divisor + remainder, with a remainder of degree below `p`, for a divisor of degree
exactly `p` (40_bit_conversion.md R72 (e)). -/
theorem longDiv_spec {b p : Nat} (hp : b.testBit p = true) (hb : b < 2 ^ (p + 1)) (a : Nat) :
    clMul (polyQuot a b p) b ^^^ polyMod a b p = a ∧ polyMod a b p < 2 ^ p := by
  simpa [polyQuot, polyMod, longDiv] using longDivLoop_spec hp hb (bitlen a) a 0 le_rfl (by simp)

/-- Uniqueness: there is no other quotient and remainder. -/
theorem longDiv_unique {b p : Nat} (hp : b.testBit p = true) (hb : b < 2 ^ (p + 1)) {a q r : Nat}
    (h : clMul q b ^^^ r = a) (hr : r < 2 ^ p) : polyQuot a b p = q ∧ polyMod a b p = r := by
  obtain ⟨h1, h2⟩ := longDiv_spec hp hb a
  have hx : clMul (polyQuot a b p ^^^ q) b = polyMod a b p ^^^ r := by
    rw [clMul_xor]
    have e : clMul (polyQuot a b p) b ^^^ polyMod a b p = clMul q b ^^^ r := by rw [h1, h]
    refine Nat.eq_of_testBit_eq fun i => ?_
    have := congrArg (fun v => Nat.testBit v i) e
    simp only [Nat.testBit_xor] at this ⊢
    revert this
    cases (clMul (polyQuot a b p) b).testBit i <;> cases (polyMod a b p).testBit i <;>
      cases (clMul q b).testBit i <;> cases r.testBit i <;> simp
  have hq : polyQuot a b p ^^^ q = 0 := by
    by_contra hne
    have := two_pow_le_clMul hp hb hne
    have := Nat.xor_lt_two_pow h2 hr
    omega
  have hq' : polyQuot a b p = q := Nat.xor_eq_zero_iff.1 hq
  refine ⟨hq', Nat.xor_eq_zero_iff.1 ?_⟩
  rw [← hx, hq, clMul_zero]

/-- The effective polynomial is monic of degree `n` (41_lfsr.md R81). -/
theorem effectivePoly_monic (g : Nat) {n : Nat} (hn : 1 ≤ n) :
    (effectivePoly g n).testBit n = true ∧ effectivePoly g n < 2 ^ (n + 1) := by
  have h : taps g n < 2 ^ n :=
    Nat.or_lt_two_pow (Nat.mod_lt _ (by positivity)) (Nat.one_lt_two_pow (by omega))
  constructor
  · rw [effectivePoly, Nat.testBit_two_pow_add_eq, Nat.testBit_lt_two_pow h]; rfl
  · rw [effectivePoly, pow_succ]; omega

/-- The effective polynomial as an XOR: no bit of `TAPS` stands at weight `2^n`. -/
theorem effectivePoly_eq_xor (g : Nat) {n : Nat} (hn : 1 ≤ n) : effectivePoly g n = 2 ^ n ^^^ taps g n := by
  have h : taps g n < 2 ^ n :=
    Nat.or_lt_two_pow (Nat.mod_lt _ (by positivity)) (Nat.one_lt_two_pow (by omega))
  have := Nat.two_pow_add_eq_or_of_lt h 1
  refine Nat.eq_of_testBit_eq fun i => ?_
  rw [effectivePoly, show 2 ^ n + taps g n = 2 ^ n ||| taps g n by simpa using this, Nat.testBit_or, Nat.testBit_xor,
    Nat.testBit_two_pow]
  by_cases hi : n = i
  · subst hi; simp [Nat.testBit_lt_two_pow h]
  · simp [hi]

end Sys2Proof.Machine
end

