-- ==== Sys2Proof/Laws/State.lean ====
section
/-! SUPPORT. One lemma for each field and each update of Block and State, true by unfolding, so that no proof unfolds a
record update. -/

namespace Sys2Proof.Machine

variable (k : Block) (s : State)

@[simp] theorem Block.setL_l (x : LfsrSlot) : (k.setL x).l = x := rfl
@[simp] theorem Block.setL_d (x : LfsrSlot) : (k.setL x).d = k.d := rfl
@[simp] theorem Block.setL_c (x : LfsrSlot) : (k.setL x).c = k.c := rfl

@[simp] theorem Block.setD_l (x : DivSlot) : (k.setD x).l = k.l := rfl
@[simp] theorem Block.setD_d (x : DivSlot) : (k.setD x).d = x := rfl
@[simp] theorem Block.setD_c (x : DivSlot) : (k.setD x).c = k.c := rfl

@[simp] theorem Block.setC_l (x : CrcSlot) : (k.setC x).l = k.l := rfl
@[simp] theorem Block.setC_d (x : CrcSlot) : (k.setC x).d = k.d := rfl
@[simp] theorem Block.setC_c (x : CrcSlot) : (k.setC x).c = x := rfl

@[simp] theorem Block.setLR_l (v : Nat) : (k.setLR v).l = { k.l with r := v } := rfl
@[simp] theorem Block.setLR_d (v : Nat) : (k.setLR v).d = k.d := rfl
@[simp] theorem Block.setLR_c (v : Nat) : (k.setLR v).c = k.c := rfl

@[simp] theorem Block.setDR_l (v : Nat) : (k.setDR v).l = k.l := rfl
@[simp] theorem Block.setDR_d (v : Nat) : (k.setDR v).d = { k.d with r := v } := rfl
@[simp] theorem Block.setDR_c (v : Nat) : (k.setDR v).c = k.c := rfl

@[simp] theorem Block.setCR_l (v : Nat) : (k.setCR v).l = k.l := rfl
@[simp] theorem Block.setCR_d (v : Nat) : (k.setCR v).d = k.d := rfl
@[simp] theorem Block.setCR_c (v : Nat) : (k.setCR v).c = { k.c with r := v } := rfl

@[simp] theorem Block.slotValid_L : k.slotValid .L = k.l.valid := rfl
@[simp] theorem Block.slotValid_D : k.slotValid .D = k.d.valid := rfl
@[simp] theorem Block.slotValid_C : k.slotValid .C = k.c.valid := rfl

@[simp] theorem complete_block (vs : List Value) : (complete vs k).block = k := rfl
@[simp] theorem complete_response (vs : List Value) : (complete vs k).response = .ok vs := rfl
@[simp] theorem complete_emitted (vs : List Value) : (complete vs k).emitted = [] := rfl

@[simp] theorem raise_block (f : FaultStatus) : (raise f k).block = k := rfl
@[simp] theorem raise_response (f : FaultStatus) : (raise f k).response = .fault f := rfl
@[simp] theorem raise_emitted (f : FaultStatus) : (raise f k).emitted = [] := rfl

@[simp] theorem State.emit_toBlock (B : Bits) : (s.emit B).toBlock = s.toBlock := rfl
@[simp] theorem State.emit_pending (B : Bits) : (s.emit B).pending = s.pending := rfl
@[simp] theorem State.emit_responses (B : Bits) : (s.emit B).responses = s.responses := rfl
@[simp] theorem State.emit_sink (B : Bits) : (s.emit B).sink = s.sink ++ B := rfl
@[simp] theorem State.emit_nil : s.emit [] = s := by simp [State.emit]

@[simp] theorem respond_toBlock (r : Response) : (respond r s).toBlock = s.toBlock := rfl
@[simp] theorem respond_pending (r : Response) : (respond r s).pending = s.pending := rfl
@[simp] theorem respond_responses (r : Response) : (respond r s).responses = s.responses ++ [r] := rfl
@[simp] theorem respond_sink (r : Response) : (respond r s).sink = s.sink := rfl

/-- A response returned on equal histories tells which response and which state. -/
theorem respond_injective {r r' : Response} {s t : State} (hs : s.responses = t.responses)
    (h : respond r s = respond r' t) : r = r' ∧ s = t := by
  cases s; cases t
  simp only [respond, State.mk.injEq] at h hs ⊢
  obtain ⟨rfl, rfl, hr, rfl⟩ := h
  subst hs
  simpa using hr

end Sys2Proof.Machine
end

