-- ==== Sys2Proof/Laws/Ops.lean ====
section
/-! SUPPORT. What each shared operation gives, once; and the tests at the spec's configuration. -/

namespace Sys2Proof.Machine

/-- What a state is after the block has answered: the block's new registers, one response more, the emitted bits behind
what the stream held, and the later transactions as they were. -/
theorem answer_eq (e : Effect) (s : State) :
    answer e s = .next { toBlock := e.block, pending := s.pending, responses := s.responses ++ [e.response],
                         sink := s.sink ++ e.emitted } := rfl

/-- Taking a fault always answers a next state, and says which: only the response is new. -/
@[simp] theorem answer_raise (f : FaultStatus) (s : State) :
    answer (raise f s.toBlock) s = .next (respond (.fault f) s) := by
  simp [answer]

/-- Completing answers a next state: the registers are the ones given, and the results are returned. -/
@[simp] theorem answer_complete (vs : List Value) (k : Block) (s : State) :
    answer (complete vs k) s = .next (respond (.ok vs) { s with toBlock := k }) := by
  simp [answer]

/-- An operation that ends in a fault status changed nothing else exactly when its registers are the old ones and it emitted
nothing. -/
theorem answer_eq_fault_iff (e : Effect) (f : FaultStatus) (s : State) :
    answer e s = .next (respond (.fault f) s) ↔ e = raise f s.toBlock := by
  constructor
  · intro h
    cases e
    rcases s with ⟨k, q, rs, sk⟩
    simpa [answer_eq, respond, raise] using h
  · rintro rfl
    exact answer_raise f s

/-- Two faults taken on the same registers are equal exactly when the statuses are. -/
@[simp] theorem raise_inj (f f' : FaultStatus) (k : Block) : raise f k = raise f' k ↔ f = f' := by
  simp [raise]

/-- A completed operation is no fault, whatever the registers. -/
@[simp] theorem complete_ne_raise (vs : List Value) (f : FaultStatus) (k k' : Block) : complete vs k ≠ raise f k' := by
  simp [complete, raise]

/-- The whole of `ifConfigured`: the operation on a configured slot, `NotConfigured` on another. -/
theorem ifConfigured_cases {slot : SlotName} {k : Block} {e o : Effect} (h : ifConfigured slot k e = o) :
    (k.slotValid slot = true ∧ o = e) ∨ (k.slotValid slot = false ∧ o = raise (.notConfigured slot) k) := by
  unfold ifConfigured at h
  cases hv : k.slotValid slot
  · exact .inr ⟨rfl, by simpa [hv] using h.symm⟩
  · exact .inl ⟨rfl, by simpa [hv] using h.symm⟩

@[simp] theorem ifConfigured_true {slot : SlotName} {k : Block} {e : Effect} (h : k.slotValid slot = true) :
    ifConfigured slot k e = e := by simp [ifConfigured, h]

@[simp] theorem ifConfigured_false {slot : SlotName} {k : Block} {e : Effect} (h : k.slotValid slot = false) :
    ifConfigured slot k e = raise (.notConfigured slot) k := by simp [ifConfigured, h]

@[simp] theorem overNmax_switches (v : Nat) : overNmax switches v = false := rfl
@[simp] theorem overLmax_switches (v : Nat) : overLmax switches v = false := rfl
@[simp] theorem tooWide_switches (v n : Nat) : tooWide switches v n = decide (2 ^ n ≤ v) := rfl
@[simp] theorem divOrder_switches : switches.divOrder = .clockThenInject := rfl
@[simp] theorem qTap_switches : switches.qTap = .preTop := rfl

/-- The whole of a division operation at any configuration: `NotConfigured`, an empty or an over-long dividend, or the
results with the register at the end of the loop. -/
theorem divideThen_cases {cfg : Config} {d : Bits} {results : Bits → Bits → List Value} {k : Block} {o : Effect}
    (h : divideThen cfg d results k = o) :
    (k.d.valid = false ∧ o = raise (.notConfigured .D) k) ∨
    (k.d.valid = true ∧ d = [] ∧ o = raise (.malformedInput .emptyDividend) k) ∨
    (k.d.valid = true ∧ d ≠ [] ∧ overLmax cfg d.length = true ∧ o = raise (.malformedInput .overLength) k) ∨
    (k.d.valid = true ∧ d ≠ [] ∧ overLmax cfg d.length = false ∧
      o = complete (results (division cfg k.d.g k.d.p d).1 (toBits (division cfg k.d.g k.d.p d).2 k.d.p))
        (k.setDR (division cfg k.d.g k.d.p d).2)) := by
  rcases ifConfigured_cases h with ⟨hv, hk⟩ | ⟨hv, hk⟩
  · refine .inr ?_
    split at hk
    · exact .inl ⟨hv, ‹_›, hk⟩
    · split at hk
      · exact .inr (.inl ⟨hv, ‹_›, ‹_›, hk⟩)
      · exact .inr (.inr ⟨hv, ‹_›, by simpa using ‹¬ (overLmax _ _ = true)›, hk⟩)
  · exact .inl ⟨hv, hk⟩

end Sys2Proof.Machine
end

