-- ==== Sys2Proof/Laws/PerInstr.lean ====
section
/-! SUPPORT. Family `Encoding`: the command word of every operation is a word of its own row of the opcode table, and of no
other row; one lemma for each constructor. -/

namespace Sys2Proof.Laws.Encoding

/-- The rows of the opcode table that cover a word, by mnemonic. -/
def rowsOf (w : CommandWord) : List String :=
  (opcodeTable.filter fun r => r.covers w).map fun r => r.mnemonic

/-- The rows of the opcode table that cover the operation's word are exactly its own. -/
def Statement (i : Instr) : Prop := rowsOf (encode i).word = [i.mnemonic]

theorem lfsrInit (g n : Nat) (seed : Int) : Statement (.lfsrInit g n seed) :=
  (by decide : rowsOf 0x00#8 = ["LFSR.INIT"])
theorem lfsrSet (v : Nat) : Statement (.lfsrSet v) := (by decide : rowsOf 0x01#8 = ["LFSR.SET"])
theorem lfsrGet : Statement .lfsrGet := (by decide : rowsOf 0x02#8 = ["LFSR.GET"])
theorem lfsrStep (stateFlag : Bool) : Statement (.lfsrStep stateFlag) := by
  cases stateFlag
  · exact (by decide : rowsOf 0x03#8 = ["LFSR.STEP"])
  · exact (by decide : rowsOf 0x13#8 = ["LFSR.STEP"])
theorem lfsrSteps (count : Nat) : Statement (.lfsrSteps count) := (by decide : rowsOf 0x04#8 = ["LFSR.STEPS"])
theorem divInit (g p : Nat) : Statement (.divInit g p) := (by decide : rowsOf 0x05#8 = ["DIV.INIT"])
theorem divDivide (d : Bits) : Statement (.divDivide d) := (by decide : rowsOf 0x06#8 = ["DIV.DIVIDE"])
theorem divQuot (d : Bits) : Statement (.divQuot d) := (by decide : rowsOf 0x07#8 = ["DIV.QUOT"])
theorem divRem (d : Bits) : Statement (.divRem d) := (by decide : rowsOf 0x08#8 = ["DIV.REM"])
theorem crcInit (g nitems : Nat) : Statement (.crcInit g nitems) := (by decide : rowsOf 0x09#8 = ["CRC.INIT"])
theorem crcEncode (payload : Items) (w : Nat) : Statement (.crcEncode payload w) :=
  (by decide : rowsOf 0x0A#8 = ["CRC.ENCODE"])
theorem crcDecode (received : Bits) (w : Nat) : Statement (.crcDecode received w) :=
  (by decide : rowsOf 0x0B#8 = ["CRC.DECODE"])

end Sys2Proof.Laws.Encoding
end

