-- ==== Sys2Proof/Tests/Slice0.lean ====
section
/-! SUPPORT. The model's own tests: each expected value is one the spec prints (95_test_vectors.md, by its vector's name,
or the rule's own example); and a witness for the hypotheses of each statement that has some. -/

namespace Sys2Proof.Tests

open Sys2Proof.Machine

/-- The next state, where there is one. -/
def after : Outcome → Option State
  | .next s    => some s
  | .fault _   => none
  | .refused _ => none

/-- The last response. -/
def answer (o : Outcome) : Option Response := (after o).bind fun s => s.responses.getLast?

/-- A bit sequence written with 0 and 1. -/
def b (l : List Nat) : Bits := l.map (· == 1)

/-- All three slots configured: `L` as V-L1 with `L.R = 8`, `D` as V-D1, `C` as V-C1. -/
def s1 : State :=
  { State.reset with
    l := { valid := true, n := 4, g := 0b10111, r := 8 }
    d := { valid := true, p := 5, g := 0b100011, r := 20 }
    c := { valid := true, g := 0b1011, nitems := 1, crcLen := 4, r := 1 } }

/-! ### WellFormed: an ill-formed operation for each check -/

theorem test_wf_lfsrInit_zero_degree : (Instr.lfsrInit 23 0 0).wellFormed = false := by decide
theorem test_wf_lfsrInit_negative_seed : (Instr.lfsrInit 23 4 (-1)).wellFormed = false := by decide
theorem test_wf_lfsrInit_wide_seed : (Instr.lfsrInit 23 4 16).wellFormed = false := by decide
theorem test_wf_divInit_zero_degree : (Instr.divInit 35 0).wellFormed = false := by decide
theorem test_wf_empty_dividend :
    (Instr.divDivide []).wellFormed = false ∧ (Instr.divQuot []).wellFormed = false ∧
    (Instr.divRem []).wellFormed = false := by decide
theorem test_wf_crcInit_small_generator : (Instr.crcInit 1 2).wellFormed = false := by decide
theorem test_wf_crcEncode_zero_width : (Instr.crcEncode [13] 0).wellFormed = false := by decide
theorem test_wf_crcEncode_wide_item : (Instr.crcEncode [0x1D] 4).wellFormed = false := by decide
theorem test_wf_crcDecode_zero_width : (Instr.crcDecode [true] 0).wellFormed = false := by decide

/-! ### Decoding: the words of 95_test_vectors.md section 7 and of the table's encodings, written out -/

theorem test_decode_lfsrInit :  -- V-E1
    (decode ⟨0b00000000#8, { g := 23, n := 4, seed := -1 }⟩).toOption = some (.lfsrInit 23 4 (-1)) := by decide
theorem test_decode_lfsrSet :
    (decode ⟨0b00000001#8, { s := 9 }⟩).toOption = some (.lfsrSet 9) := by decide
theorem test_decode_lfsrGet : (decode ⟨0b00000010#8, {}⟩).toOption = some .lfsrGet := by decide
theorem test_decode_lfsrStep :  -- V-E2, V-E3
    decodeTableWord 8 0x03 = some (.lfsrStep false) ∧ decodeTableWord 8 0x13 = some (.lfsrStep true) := by decide
theorem test_decode_lfsrSteps :
    (decode ⟨0b00000100#8, { count := 7 }⟩).toOption = some (.lfsrSteps 7) := by decide
theorem test_decode_divInit :
    (decode ⟨0b00000101#8, { g := 35, p := 5, n := 9 }⟩).toOption = some (.divInit 35 5) := by decide
theorem test_decode_divDivide :
    (decode ⟨0b00000110#8, { d := [true] }⟩).toOption = some (.divDivide [true]) := by decide
theorem test_decode_divQuot :
    (decode ⟨0b00000111#8, { d := [true] }⟩).toOption = some (.divQuot [true]) := by decide
theorem test_decode_divRem :
    (decode ⟨0b00001000#8, { d := [true] }⟩).toOption = some (.divRem [true]) := by decide
theorem test_decode_crcInit :
    (decode ⟨0b00001001#8, { g := 0x18005, nitems := 2, n := 7 }⟩).toOption = some (.crcInit 0x18005 2) := by decide
theorem test_decode_crcEncode :
    (decode ⟨0b00001010#8, { payload := [0x6D], w := 8 }⟩).toOption = some (.crcEncode [0x6D] 8) := by decide
theorem test_decode_crcDecode :  -- V-E4
    (decode ⟨0b00001011#8, { received := [true], w := 8 }⟩).toOption = some (.crcDecode [true] 8) := by decide
theorem test_decode_illegal_words :  -- V-E5 to V-E8
    decodeTableWord 8 0x1B = none ∧ decodeTableWord 8 0x0C = none ∧ decodeTableWord 8 0x23 = none ∧
    decodeTableWord 8 0xFF = none := by decide

/-! ### The conversions (95_test_vectors.md section 2) -/

theorem test_toBits_vectors :  -- V-B2, V-B4, V-B5, V-B6
    toBits 0x1B 4 = b [1, 0, 1, 1] ∧ toBits 7 0 = [] ∧ toBitsMinimal 0 = b [0] ∧ toBitsMinimal 6 = b [1, 1, 0] := by
  decide
theorem test_fromBits_vectors :  -- V-B9, V-B11, V-B12
    fromBits (b [1, 0, 1, 0, 0]) = 20 ∧ fromBits [] = 0 ∧ fromBits (toBits 300 8) = 44 := by decide

/-! ### The LFSR unit -/

theorem test_lfsrInit_configures :  -- R74 example
    (after (exec (.lfsrInit 0b10111 4 1) State.reset)).map (·.l) = some ⟨true, 4, 0b10111, 1⟩ := by decide
theorem test_lfsrInit_negative_seed_comes_first :  -- V-F3
    answer (exec (.lfsrInit 0b10111 0 (-1)) State.reset) = some (.fault (.invalidSeed (-1))) := by decide
theorem test_lfsrSet_writes :  -- R75 example
    (after (exec (.lfsrSet 0b1011) s1)).map (·.l.r) = some 11 := by decide
theorem test_lfsrSet_refuses_wide :  -- V-F8
    answer (exec (.lfsrSet 16) s1) = some (.fault (.badParameter .s)) := by decide
theorem test_lfsrGet_reads : answer (exec .lfsrGet s1) = some (.ok [.nat 8]) := by decide  -- R76
theorem test_lfsrStep_state_flag :  -- R77 example
    answer (exec (.lfsrStep true) s1) = some (.ok [.bit false, .nat 7]) := by decide
theorem test_lfsrStep_unconfigured :  -- V-F1
    answer (exec (.lfsrStep false) State.reset) = some (.fault (.notConfigured .L)) := by decide
theorem test_lfsrSteps_emits :  -- V-L1
    (after (exec (.lfsrSteps 7) { s1 with l := ⟨true, 4, 0b10111, 1⟩, sink := [true] })).map
      (fun t => (t.l.r, t.sink)) = some (1, b [1, 0, 0, 1, 0, 1, 1, 0]) := by decide
theorem test_lfsrStep_table :  -- V-L3
    (List.range 16).map (fun s => (lfsrStep s 0b10011 4).2) = [0, 2, 4, 6, 8, 10, 12, 14, 3, 1, 7, 5, 11, 9, 15, 13] := by
  decide
theorem test_lfsrStep_wide_polynomial :  -- V-L5
    lfsrStep 0xFFFF 0x18005 16 = (false, 0x7FFB) := by decide

/-! ### The PolyDivider unit -/

theorem test_divInit_configures :  -- R88 example
    (after (exec (.divInit 0b100011 5) State.reset)).map (·.d) = some ⟨true, 5, 35, 0⟩ := by decide
theorem test_divInit_zero_degree :  -- V-F12
    answer (exec (.divInit 35 0) State.reset) = some (.fault (.badParameter .p)) := by decide
theorem test_divDivide_vector :  -- V-D1
    answer (exec (.divDivide (b [1, 1, 0, 1, 0, 0, 0, 1, 1])) s1) =
      some (.ok [.bits (b [0, 0, 0, 0, 0, 1, 1, 0]), .bits (b [1, 0, 1, 0, 0])]) := by decide
theorem test_divDivide_empty_resets_nothing :  -- V-F14
    (after (exec (.divDivide []) s1)).map (fun t => (t.d.r, t.responses)) =
      some (20, [.fault (.malformedInput .emptyDividend)]) := by decide
theorem test_divQuot_extra_bit :  -- V-D7
    answer (exec (.divQuot (b [1, 1, 0, 1, 0, 0, 0, 1, 1, 0])) s1) = some (.ok [.nat 13]) := by decide
theorem test_divQuot_one_bit : answer (exec (.divQuot [true]) s1) = some (.ok [.nat 0]) := by decide  -- V-D4
set_option maxRecDepth 20000 in
theorem test_divRem_vector :  -- R91 example
    answer (exec (.divRem (b [1, 1, 0, 1, 0, 0, 0, 1, 1])) s1) = some (.ok [.nat 20]) := by decide
theorem test_divRem_short : answer (exec (.divRem (b [1, 0, 1])) s1) = some (.ok [.nat 5]) := by decide  -- V-D13
theorem test_alternative_switches :  -- V-D9, V-D10
    division { switches with divOrder := .injectThenClock } 35 5 (b [1, 1, 0, 1, 0, 0, 0, 1, 1]) =
      (b [0, 0, 0, 0, 1, 1, 0, 1], 0b00110) ∧
    division { switches with qTap := .nextTop } 35 5 (b [1, 1, 0, 1, 0, 0, 0, 1, 1]) =
      (b [0, 0, 0, 0, 1, 1, 0, 1], 0b10100) := by decide

/-! ### The CRC Codec unit -/

theorem test_crcInit_configures :  -- R103 example
    (after (exec (.crcInit 0x18005 2) State.reset)).map (·.c) = some ⟨true, 0x18005, 2, 17, 0⟩ := by decide
theorem test_crcInit_small_generator :  -- V-F15
    answer (exec (.crcInit 1 2) State.reset) = some (.fault (.badParameter .g)) := by decide
theorem test_crcEncode_small :  -- V-C1
    answer (exec (.crcEncode [0b1101] 4) s1) = some (.ok [.bits (b [1, 1, 0, 1, 0, 0, 1])]) := by decide
theorem test_crcEncode_width_before_length :  -- V-F19
    answer (exec (.crcEncode [0x1D, 2] 0) s1) = some (.fault (.malformedInput .itemWidth)) := by decide
theorem test_crcDecode_corrupted :  -- V-C1
    answer (exec (.crcDecode (b [1, 1, 0, 1, 0, 0, 0]) 4) s1) = some (.ok [.items [13], .nat 1]) := by decide
theorem test_crcDecode_long :  -- V-F21
    answer (exec (.crcDecode (b [1, 1, 0, 1, 0, 0, 1, 0]) 4) s1) =
      some (.fault (.malformedInput .receivedLength)) := by decide
set_option maxRecDepth 20000 in
theorem test_crc16_check_value :  -- V-C2
    crcDivideRemainder switches ⟨true, 0x18005, 2, 17, 0⟩ (flatten [0x6D, 0x27] 8 ++ zeros 16) = 0x6ED4 := by decide

/-! ### The step, and the host-side tool -/

theorem test_step_illegal_before_not_configured :  -- V-F11
    answer (step (State.reset.withFetchWord 8 0x2C)) = some (.fault (.illegalCommand 0x2C#8)) := by decide
theorem test_step_takes_the_oldest :
    (after (step { s1 with pending := [encode .lfsrGet, encode (.lfsrSet 9)] })).map
      (fun t => (t.l.r, t.responses, t.pending)) = some (8, [.ok [.nat 8]], [encode (.lfsrSet 9)]) := by decide
theorem test_assemble :  -- R58, R59
    assemble "LFSR.INIT 0b10111, 4" = some (.lfsrInit 23 4 1) ∧
    assemble "LFSR.INIT 0b10111, 4, -1" = some (.lfsrInit 23 4 (-1)) ∧
    assemble "CRC.ENCODE [0x6D, 0x27] -> codeword" = some (.crcEncode [0x6D, 0x27] 8) ∧
    assemble "LFSR.STEP.S -> out, state" = some (.lfsrStep true) ∧
    assemble "DIV.DIVIDE [1, 0, 2]" = none := by decide

theorem test_write :  -- the notation of R58, the operands of its examples
    writeLine .binary "LFSR.INIT" [.num 0b10111, .num (-1)] = "LFSR.INIT 0b10111, -0b1".toList ∧
    writeLine .hexadecimal "CRC.ENCODE" [.list [0x6d, 0x27], .num 8] = "CRC.ENCODE [0x6d, 0x27], 0x8".toList ∧
    writeLine .decimal "DIV.REM" [.list [1, 0, 1]] = "DIV.REM [1, 0, 1]".toList := by decide

/-! ### Witnesses: the hypotheses of the statements can be met -/

theorem witness_WrittenFormAssemblesBack : IsResultPart [] ∧ IsResultPart " -> out, state".toList :=
  ⟨.inl rfl, .inr ⟨" out, state".toList, rfl⟩⟩
theorem witness_StepRunsTheDecodedOperation :
    ({ s1 with pending := [encode .lfsrGet] } : State).pending = encode .lfsrGet :: [] ∧
    decode (encode .lfsrGet) = .ok .lfsrGet ∧ decodeTableWord 8 0x0B = some (.crcDecode [] 0) := ⟨rfl, rfl, rfl⟩
theorem witness_IllegalCommandAnsweredAndIdleHolds :
    ({ s1 with pending := [⟨0x0C#8, {}⟩] } : State).pending = ⟨0x0C#8, {}⟩ :: [] ∧
    decode ⟨0x0C#8, {}⟩ = .error .reservedOp ∧ s1.pending = [] := ⟨rfl, rfl, rfl⟩
theorem witness_EveryStepGoesOnWithOneResponse :
    s1.pending = [] ∧ ({ s1 with pending := [encode .lfsrGet] } : State).pending ≠ [] := by decide
theorem witness_PowerOnLeavesEverySlotUnconfigured : isInit .lfsrGet = false := by decide

/-- `L` unconfigured, its other registers arbitrary, and an operation issued. -/
def sUnset (v : Nat) : State :=
  { s1 with l := { valid := false, n := v, g := v, r := v }, pending := [encode .lfsrGet] }

theorem witness_UnconfiguredRegistersCannotBeObserved :
    (sUnset 1).Indistinguishable (sUnset 2) ∧ sUnset 1 ≠ sUnset 2 ∧
    step (sUnset 1) = .next { sUnset 1 with pending := [], responses := [.fault (.notConfigured .L)] } :=
  ⟨⟨by decide, by decide, by decide, rfl, rfl, rfl⟩, by decide, rfl⟩
theorem witness_EveryStepKeepsRegisterWidths :
    ({ s1 with pending := [encode .lfsrGet] } : State).Inv ∧
    step { s1 with pending := [encode .lfsrGet] } = .next { s1 with responses := [.ok [.nat 8]] } := ⟨by decide, rfl⟩
theorem witness_OnlyInitSetsValidAndNothingClearsIt :
    step { State.reset with pending := [encode (.divInit 35 5)] } =
      .next { State.reset with d := ⟨true, 5, 35, 0⟩, responses := [.ok []] } ∧
    State.reset.slotValid .D = false ∧ ({ State.reset with d := ⟨true, 5, 35, 0⟩ } : State).slotValid .D = true ∧
    step s1 = .next s1 ∧ s1.slotValid .L = true :=
  ⟨rfl, rfl, rfl, rfl, rfl⟩
theorem witness_OperationsTouchOnlyTheirOwnSlot :
    exec (.divRem (b [1, 0, 1])) s1 = .next (respond (.ok [.nat 5]) { s1 with toBlock := s1.setDR 5 }) ∧ slotOf (.divRem (b [1, 0, 1])) ≠ .L ∧
    (∀ count, Instr.divRem (b [1, 0, 1]) ≠ .lfsrSteps count) ∧
    exec (.lfsrSet 9) s1 = .next (respond (.ok []) { s1 with toBlock := s1.setLR 9 }) ∧ slotOf (.lfsrSet 9) ≠ .D ∧
    slotOf (.lfsrSet 9) ≠ .C := ⟨rfl, by decide, by simp, rfl, by decide, by decide⟩
theorem witness_ConfigurationIsWrittenOnlyByInit :
    isInit (.lfsrSet 9) = false ∧ exec (.lfsrSet 9) s1 = .next (respond (.ok []) { s1 with toBlock := s1.setLR 9 }) ∧
    exec .lfsrGet s1 = .next (respond (.ok [.nat 8]) s1) := ⟨rfl, rfl, rfl⟩
theorem witness_FaultsChangeNothing :
    exec (.lfsrSet 16) s1 = .next { s1 with responses := [] ++ [.fault (.badParameter .s)] } ∧
    step { s1 with pending := [⟨0x11#8, {}⟩] } = .next { s1 with responses := [] ++ [.fault (.illegalCommand 0x11#8)] } :=
  ⟨rfl, rfl⟩
theorem witness_NonzeroSyndromeAndOddPolynomialsAreNoFault :
    s1.c.valid = true ∧ 1 ≤ 4 ∧ (b [1, 1, 0, 1, 0, 0, 0]).length = s1.c.nitems * 4 + s1.c.degree ∧
    (1 ≤ 1 ∧ 1 < 2 ^ 1) ∧ (1 : Nat) ≤ 1 ∧ 2 ≤ 2 := by decide
theorem witness_BoundedImplementationsRefuseBeyondTheirBounds :
    ({ switches with nmax := some 4, lmax := some 6 } : Config).nmax = some 4 ∧
    ({ switches with nmax := some 4, lmax := some 6 } : Config).lmax = some 6 ∧ 4 < 5 ∧ 2 ^ (4 + 1) ≤ 32 ∧
    s1.l.valid = true ∧ s1.d.valid = true ∧ s1.c.valid = true ∧ 6 < 7 ∧ 6 < (b [1, 1, 0, 1, 0, 0, 0]).length ∧
    (b [1, 1, 0, 1, 0, 0, 0]).length = s1.c.nitems * 4 + s1.c.degree ∧
    (1 ≤ 4 ∧ [13].length = s1.c.nitems ∧ (∀ v ∈ [13], v < 2 ^ 4) ∧ 6 < s1.c.nitems * 4 + s1.c.degree) ∧
    (Instr.divRem [true] = .divDivide [true] ∨ Instr.divRem [true] = .divQuot [true] ∨
      Instr.divRem [true] = .divRem [true]) := by decide
theorem witness_ToBitsKeepsTheLowBitsMsbFirst : 3 < 4 ∧ 15 < 2 ^ 4 := by decide
theorem witness_BitConversionLaws : 1 ≤ 1 := by decide
theorem witness_PayloadItemsStandMsbFirstInOrder : 1 < [10, 5].length ∧ 3 < 4 ∧ 15 < 2 ^ 4 := by decide
theorem witness_LfsrInitConfiguresTheSlot : (1 ≤ 1 ∧ 1 < 2 ^ 1) ∧ 1 ≤ 4 ∧ 15 < 2 ^ 4 := by decide
theorem witness_LfsrSetWritesAndGetReads : s1.l.valid = true ∧ 15 < 2 ^ s1.l.n := by decide
theorem witness_LfsrStepIsItsClosedForm : (1 ≤ 1 ∧ 1 < 2 ^ 1) ∧ (1 ≤ 4 ∧ 15 < 2 ^ 4) ∧ (1 ≤ 3 ∧ 3 ≤ 4 - 1) := by decide
theorem witness_LfsrStepStepsTheRegister : s1.l.valid = true ∧ s1.l.Inv := by decide
theorem witness_LfsrStepsEmitsEachNewTopBit : s1.l.valid = true ∧ s1.l.Inv := by decide
theorem witness_LfsrStepsCompose :
    exec (.lfsrSteps 1) s1 = .next (respond (.ok []) { s1 with l := ⟨true, 4, 0b10111, 7⟩, sink := [false] }) ∧
    exec (.lfsrStep false) s1 = .next (respond (.ok [.bit false]) { s1 with l := ⟨true, 4, 0b10111, 7⟩ }) ∧
    exec (.lfsrSteps 0) (respond (.ok []) { s1 with l := ⟨true, 4, 0b10111, 7⟩, sink := [false] }) =
      .next (respond (.ok []) (respond (.ok []) { s1 with l := ⟨true, 4, 0b10111, 7⟩, sink := [false] })) ∧
    exec (.lfsrSteps 0) (respond (.ok [.bit false]) { s1 with l := ⟨true, 4, 0b10111, 7⟩ }) =
      .next (respond (.ok []) (respond (.ok [.bit false]) { s1 with l := ⟨true, 4, 0b10111, 7⟩ })) ∧
    s1.l.valid = true := ⟨rfl, rfl, rfl, rfl, rfl⟩
theorem witness_LfsrStepsMultiplyByXModuloThePolynomial :
    1 ≤ 4 ∧ 15 < 2 ^ 4 ∧ 2 ^ 4 ≤ 0b10111 ∧ 0b10111 < 2 ^ (4 + 1) ∧ 0b10111 % 2 = 1 := by decide
theorem witness_OnlyMiddleCoefficientsMatter :
    1 ≤ 4 ∧ ∀ k, 1 ≤ k → k < 4 → (0b10110 : Nat).testBit k = (0b1110111 : Nat).testBit k := by
  refine ⟨by decide, fun k h1 h2 => ?_⟩
  interval_cases k <;> decide
theorem witness_LfsrStepIsInvertible : 1 ≤ 4 ∧ 15 < 2 ^ 4 := by decide
theorem witness_EveryLfsrStateReturns : 1 ≤ 4 ∧ 13 < 2 ^ 4 := by decide
theorem witness_KeepVerbatimStoresWideStates :
    ({ switches with wideState := .keepVerbatim } : Config) = { switches with wideState := .keepVerbatim } ∧
    1 ≤ 4 ∧ s1.l.valid = true ∧ 15 < 2 ^ s1.l.n := by decide
theorem witness_DivInitConfiguresTheSlot : (1 : Nat) ≤ 1 := by decide
theorem witness_DivDivideReturnsTheGf2Division : s1.d.valid = true ∧ s1.d.Inv ∧ [true] ≠ [] := by decide
theorem witness_DivQuotAndDivRemReturnTheIntegers : s1.d.valid = true ∧ s1.d.Inv ∧ [true] ≠ [] := by decide
theorem witness_DividerIterationIsItsClosedForm : (1 ≤ 1 ∧ 1 < 2 ^ 1) ∧ 1 ≤ 5 ∧ 31 < 2 ^ 5 := by decide
theorem witness_DivisionLoopIsLongDivision : 1 ≤ 5 ∧ 4 < min 5 (b [1, 1, 0, 1, 0]).length := by decide
theorem witness_QuotientIsTheTrueQuotientHalved : (1 : Nat) ≤ 1 ∧ [true] ≠ [] := by decide
theorem witness_ShortDividendsAndLeadingZeros : 1 ≤ 5 ∧ b [1, 1, 1, 1, 1] ≠ [] ∧ (b [1, 1, 1, 1, 1]).length ≤ 5 := by
  decide
theorem witness_DivisionCornerCases : (1 : Nat) ≤ 1 := by decide
theorem witness_InjectThenClockDividesByAnotherPolynomial : (2 : Nat) ≤ 2 ∧ [true] ≠ [] := by decide
theorem witness_NextTopReturnsTheTrueQuotient : (1 : Nat) ≤ 1 ∧ [true] ≠ [] ∧ 2 ≤ 2 ∧ 3 < 2 ^ 2 := by decide
theorem witness_DivisionsStartFromAClearedRegister :
    (Instr.divRem [true] = .divDivide [true] ∨ Instr.divRem [true] = .divQuot [true] ∨
      Instr.divRem [true] = .divRem [true]) ∧
    slotOf (.divInit 35 5) ≠ .L ∧
    exec (.divInit 35 5) s1 = .next (respond (.ok []) { s1 with d := ⟨true, 5, 35, 0⟩ }) ∧
    exec .lfsrGet s1 = .next (respond (.ok [.nat 8]) s1) ∧
    (respond (.fault (.badParameter .s)) s1).responses = s1.responses ++ [.fault (.badParameter .s)] ∧
    exec (.lfsrSet 16) s1 = .next (respond (.fault (.badParameter .s)) s1) :=
  ⟨by decide, by decide, rfl, rfl, rfl, rfl⟩
theorem witness_CrcInitConfiguresTheSlot :
    1 ≤ 1 ∧ (3 : Nat).testBit 1 = true ∧ ∀ j, 1 < j → (3 : Nat).testBit j = false := by
  refine ⟨le_rfl, by decide, fun j hj => Nat.testBit_lt_two_pow ?_⟩
  calc 3 < 2 ^ 2 := by decide
    _ ≤ 2 ^ j := Nat.pow_le_pow_right (by decide) hj
theorem witness_CrcLenIsTheGeneratorsBitLength :
    ((3 : Nat).testBit 1 = true ∧ ∀ j, 1 < j → (3 : Nat).testBit j = false) ∧ 2 ≤ 0b1011 ∧
    exec (.crcInit 0b1011 1) State.reset =
      .next (respond (.ok []) { State.reset with c := ⟨true, 0b1011, 1, 4, 0⟩ }) ∧
    Completes (.crcEncode [13] 4) (respond (.ok []) { State.reset with c := ⟨true, 0b1011, 1, 4, 0⟩ })
      [.bits (b [1, 1, 0, 1, 0, 0, 1])] (respond (.ok []) { State.reset with c := ⟨true, 0b1011, 1, 4, 1⟩ }) :=
  ⟨witness_CrcInitConfiguresTheSlot.2, by decide, rfl, rfl⟩
set_option maxRecDepth 20000 in
theorem witness_CrcLenIsTheGeneratorsBitLength_crc16 :
    exec (.crcInit 0x18005 0) State.reset =
      .next (respond (.ok []) { State.reset with c := ⟨true, 0x18005, 0, 17, 0⟩ }) ∧
    Completes (.crcEncode [] 8) (respond (.ok []) { State.reset with c := ⟨true, 0x18005, 0, 17, 0⟩ })
      [.bits (zeros 16)] (respond (.ok []) { State.reset with c := ⟨true, 0x18005, 0, 17, 0⟩ }) := ⟨rfl, rfl⟩
theorem witness_CrcEncodeAppendsTheRemainder :
    s1.c.valid = true ∧ s1.c.Inv ∧ 1 ≤ 4 ∧ [15].length = s1.c.nitems ∧ ∀ v ∈ [15], v < 2 ^ 4 := by decide
theorem witness_CrcDecodeReturnsPayloadAndSyndrome :
    s1.c.valid = true ∧ s1.c.Inv ∧ 1 ≤ 4 ∧ (b [1, 1, 0, 1, 0, 0, 1]).length = s1.c.nitems * 4 + s1.c.degree := by decide

theorem witness_CodewordLayout :
    s1.c.valid = true ∧ s1.c.Inv ∧
    Completes (.crcEncode [13] 4) s1 [.bits (b [1, 1, 0, 1, 0, 0, 1])] { s1 with toBlock := s1.setCR 1 } := ⟨rfl, by decide, rfl⟩
theorem witness_DecodeOfEncodeGivesThePayloadAndSyndromeZero :
    s1.c.valid = true ∧ s1.c.Inv ∧ 1 ≤ 4 ∧ [13].length = s1.c.nitems ∧ ∀ v ∈ [13], v < 2 ^ 4 := by decide
theorem witness_SyndromeIsLinear :
    s1.c.valid = true ∧ s1.c.Inv ∧ (b [1, 1, 0, 1, 0, 0, 1]).length = (b [0, 0, 0, 0, 0, 0, 1]).length := by decide
theorem witness_EverySingleBitErrorIsDetected :
    s1.c.valid = true ∧ s1.c.Inv ∧
    Completes (.crcEncode [13] 4) s1 [.bits (b [1, 1, 0, 1, 0, 0, 1])] { s1 with toBlock := s1.setCR 1 } ∧
    6 < (b [1, 1, 0, 1, 0, 0, 1]).length := ⟨rfl, by decide, rfl, by decide⟩
theorem witness_DecodedPayloadIsTheLiteralBits :
    Completes (.crcDecode (b [1, 1, 0, 1, 0, 0, 1]) 4) s1 [.items [13], .nat 0] { s1 with toBlock := s1.setCR 0 } ∧
    Completes (.crcDecode (b [1, 1, 0, 1, 0, 0, 0]) 4) s1 [.items [13], .nat 1] { s1 with toBlock := s1.setCR 1 } ∧
    (b [1, 1, 0, 1, 0, 0, 1]).take (s1.c.nitems * 4) = (b [1, 1, 0, 1, 0, 0, 0]).take (s1.c.nitems * 4) :=
  ⟨rfl, rfl, rfl⟩
theorem witness_CodecCornerCases :
    s1.c.valid = true ∧ s1.c.Inv ∧ 1 ≤ 1 ∧
    ({ s1 with c := { s1.c with nitems := 0 } } : State).c.valid = true ∧
    ({ s1 with c := { s1.c with nitems := 0 } } : State).c.Inv ∧
    ({ s1 with c := { s1.c with nitems := 0 } } : State).c.nitems = 0 ∧ (b [1, 0, 1]).length = s1.c.degree := by decide
theorem witness_BlockStepTakesItsInputsAsParameters :
    ({ s1 with pending := [encode .lfsrGet] } : State).pending = encode .lfsrGet :: [] ∧
    (transact switches ⟨0x0C#8, {}⟩ s1.toBlock).response = .fault (.illegalCommand 0x0C#8) ∧
    decode ⟨0x0C#8, {}⟩ = .error .reservedOp ∧ decode (encode .lfsrGet) = .ok .lfsrGet ∧ slotOf .lfsrGet ≠ .D ∧
    slotOf .lfsrGet ≠ .C ∧ slotOf (.divInit 35 5) ≠ .L ∧ decode (encode (.divInit 35 5)) = .ok (.divInit 35 5) ∧
    (∀ count, Instr.lfsrGet ≠ .lfsrSteps count) := ⟨rfl, rfl, rfl, rfl, by decide, by decide, by decide, rfl, by simp⟩

end Sys2Proof.Tests
end

/-! ## Bit sequences and the bit form of a payload (20_memory.md R32 to R35) -/

namespace Sys2Proof.Machine

/-- Encoding and reading back keeps the low `N` bits (40_bit_conversion.md R67, R69). -/
@[simp] theorem fromBits_toBits (v N : Nat) : fromBits (toBits v N) = v % 2 ^ N := by
  refine Nat.eq_of_testBit_eq fun k => ?_
  rw [testBit_fromBits, bitAt_toBits, toBits_length, Nat.testBit_mod_two_pow]
  by_cases hk : k < N
  · have hpos : N - 1 - k < N := by omega
    have hweight : N - 1 - (N - 1 - k) = k := by omega
    simp [hk, hpos, hweight]
  · simp [hk]

theorem bitAt_append_left {A : Bits} (B : Bits) {i : Nat} (h : i < A.length) : bitAt (A ++ B) i = bitAt A i :=
  List.getD_append _ _ _ _ h

theorem bitAt_append_length_add (A B : Bits) (i : Nat) : bitAt (A ++ B) (A.length + i) = bitAt B i := by
  rw [bitAt, List.getD_append_right _ _ _ _ (by omega), Nat.add_sub_cancel_left, bitAt]

/-- The bit of weight `2^b` of item `k` of a payload (20_memory.md R34). -/
theorem bitAt_flatten {payload : Items} {w k b : Nat} (hk : k < payload.length) (hb : b < w) :
    bitAt (flatten payload w) (k * w + (w - 1 - b)) = (payload.getD k 0).testBit b := by
  induction payload generalizing k with
  | nil => simp at hk
  | cons v payload ih =>
    cases k with
    | zero =>
      have hpos : w - 1 - b < w := by omega
      have hweight : w - 1 - (w - 1 - b) = b := by omega
      rw [flatten_cons, Nat.zero_mul, Nat.zero_add, bitAt_append_left _ (by simpa using hpos), bitAt_toBits, hweight]
      simp [hpos]
    | succ k =>
      have hshift : (k + 1) * w + (w - 1 - b) = (toBits v w).length + (k * w + (w - 1 - b)) := by
        rw [toBits_length]; ring
      rw [flatten_cons, hshift, bitAt_append_length_add, ih (by simpa using hk), List.getD_cons_succ]

/-- The first item of a payload is the most significant part of the message. -/
theorem fromBits_flatten_cons {v w : Nat} (payload : Items) (hv : v < 2 ^ w) :
    fromBits (flatten (v :: payload) w) = v * 2 ^ (payload.length * w) + fromBits (flatten payload w) := by
  rw [flatten_cons, fromBits_append, fromBits_toBits, Nat.mod_eq_of_lt hv, flatten_length]

/-- Behind a sequence, a value of `p` bits fills the places the sequence leaves as `x^p` times its polynomial. -/
theorem fromBits_append_toBits (A : Bits) {r p : Nat} (hr : r < 2 ^ p) :
    fromBits (A ++ toBits r p) = (fromBits A * 2 ^ p) ^^^ r := by
  rw [fromBits_append, fromBits_toBits, Nat.mod_eq_of_lt hr, toBits_length]
  refine Nat.eq_of_testBit_eq fun i => ?_
  rw [Nat.testBit_xor, Nat.testBit_mul_two_pow, Nat.mul_comm, Nat.testBit_two_pow_mul_add _ hr]
  by_cases hi : i < p
  · simp [hi, Nat.not_le.2 hi]
  · have hhigh : r.testBit i = false :=
      Nat.testBit_lt_two_pow (hr.trans_le (Nat.pow_le_pow_right (by omega) (by omega)))
    simp [hi, hhigh, Nat.le_of_not_lt hi]

/-- Settles O27: the position by induction on the payload, the value from the weight of a concatenation's front part. -/
theorem payloadItemsStandMsbFirstInOrder : Obligations.PayloadItemsStandMsbFirstInOrder :=
  ⟨flatten_length, fun _ _ _ _ hk hb => bitAt_flatten hk hb,
    fun v payload w hv => ⟨flatten_cons v payload w, fromBits_flatten_cons payload hv⟩⟩

/-! ## The register of a division stays in its width (10_state.md R18 to R21) -/

theorem injectBit0_lt {r p : Nat} (b : Bool) (hp : 1 ≤ p) (hr : r < 2 ^ p) : injectBit0 r b < 2 ^ p := by
  refine Nat.lt_pow_two_of_testBit _ fun i hi => ?_
  have hi0 : i ≠ 0 := by omega
  rw [testBit_injectBit0, if_neg hi0]
  exact Nat.testBit_lt_two_pow (hr.trans_le (Nat.pow_le_pow_right (by omega) hi))

theorem divIter_lt (order : DivOrder) (r g : Nat) {p : Nat} (b : Bool) (hp : 1 ≤ p) :
    divIter order r g p b < 2 ^ p := by
  cases order with
  | clockThenInject => exact injectBit0_lt _ hp (lfsrStep_state_lt r g p)
  | injectThenClock => exact lfsrStep_state_lt _ g p

theorem divLoop_register_lt (cfg : Config) (g : Nat) {p r : Nat} (d : Bits) (hp : 1 ≤ p) (hr : r < 2 ^ p) :
    (divLoop cfg g p r d).2 < 2 ^ p := by
  induction d generalizing r with
  | nil => exact hr
  | cons b d ih => exact ih (divIter_lt cfg.divOrder r g _ hp)

/-- The remainder a configured codec computes fits its register. -/
theorem crcDivideRemainder_lt (cfg : Config) {c : CrcSlot} (B : Bits) (hv : c.valid = true) (hc : c.Inv) :
    crcDivideRemainder cfg c B < 2 ^ c.degree := by
  obtain ⟨-, hlen, -⟩ := hc hv
  have hp : 1 ≤ c.degree := Nat.le_sub_of_add_le hlen
  exact divLoop_register_lt cfg c.g B hp (by positivity)

/-! ## CRC.ENCODE (43_crc_codec.md R104) -/

/-- The remainder whose bits `CRC.ENCODE` appends: that of the payload padded with one zero for each check bit. -/
def encodeRemainder (cfg : Config) (c : CrcSlot) (payload : Items) (w : Nat) : Nat :=
  crcDivideRemainder cfg c (flatten payload w ++ zeros c.degree)

theorem encodeRemainder_lt (cfg : Config) {c : CrcSlot} (payload : Items) (w : Nat) (hv : c.valid = true)
    (hc : c.Inv) : encodeRemainder cfg c payload w < 2 ^ c.degree :=
  crcDivideRemainder_lt cfg _ hv hc

/-- The operation overwrites exactly the padding, so its codeword is the payload's bits and then the check bits. -/
theorem memWrite_padded_payload {payload : Items} {n : Nat} (w p r : Nat) (hl : payload.length = n) :
    memWrite (flatten payload w ++ zeros p) (n * w) (toBits r p) = flatten payload w ++ toBits r p := by
  rw [← hl, ← flatten_length payload w]
  exact memWrite_tail _ _ _ (by simp)

/-- The whole of `CRC.ENCODE` at any configuration: `NotConfigured`, the four malformed inputs in the order of their
tests, or the codeword with the remainder left in `C.R`. -/
theorem opCrcEncode_cases {cfg : Config} {payload : Items} {w : Nat} {k : Block} {o : Effect}
    (h : opCrcEncode cfg payload w k = o) :
    (k.c.valid = false ∧ o = raise (.notConfigured .C) k) ∨
    (k.c.valid = true ∧ w = 0 ∧ o = raise (.malformedInput .itemWidth) k) ∨
    (k.c.valid = true ∧ w ≠ 0 ∧ payload.length ≠ k.c.nitems ∧ o = raise (.malformedInput .payloadLength) k) ∨
    (k.c.valid = true ∧ w ≠ 0 ∧ payload.length = k.c.nitems ∧ someItemTooWide payload w = true ∧
      o = raise (.malformedInput .itemValue) k) ∨
    (k.c.valid = true ∧ w ≠ 0 ∧ payload.length = k.c.nitems ∧ someItemTooWide payload w = false ∧
      overLmax cfg (k.c.nitems * w + k.c.degree) = true ∧ o = raise (.malformedInput .overLength) k) ∨
    (k.c.valid = true ∧ w ≠ 0 ∧ payload.length = k.c.nitems ∧ someItemTooWide payload w = false ∧
      overLmax cfg (k.c.nitems * w + k.c.degree) = false ∧
      o = complete [.bits (flatten payload w ++ toBits (encodeRemainder cfg k.c payload w) k.c.degree)]
        (k.setCR (encodeRemainder cfg k.c payload w))) := by
  rcases ifConfigured_cases h with ⟨hv, hk⟩ | ⟨hv, hk⟩
  · refine .inr ?_
    split_ifs at hk with hw hl hi hm
    · exact .inl ⟨hv, hw, hk⟩
    · exact .inr (.inl ⟨hv, hw, hl, hk⟩)
    · exact .inr (.inr (.inl ⟨hv, hw, not_not.1 hl, hi, hk⟩))
    · exact .inr (.inr (.inr (.inl ⟨hv, hw, not_not.1 hl, Bool.eq_false_of_not_eq_true hi, hm, hk⟩)))
    · dsimp only at hk
      rw [memWrite_padded_payload _ _ _ (not_not.1 hl)] at hk
      exact .inr (.inr (.inr (.inr
        ⟨hv, hw, not_not.1 hl, Bool.eq_false_of_not_eq_true hi, Bool.eq_false_of_not_eq_true hm, hk⟩)))
  · exact .inl ⟨hv, hk⟩

theorem exec_crcEncode (payload : Items) (w : Nat) (s : State) :
    exec (.crcEncode payload w) s = answer (opCrcEncode switches payload w s.toBlock) s := rfl

/-- What the host and the state show of an operation: its response and its registers. -/
theorem response_block_of_answer {e : Effect} {r : Response} {s t : State} (h : answer e s = .next (respond r t)) :
    e.response = r ∧ e.block = t.toBlock := by
  rw [answer_eq, Host.Outcome.next.injEq] at h
  obtain ⟨-, hr⟩ := List.append_inj' (congrArg State.responses h) rfl
  exact ⟨List.singleton_injective hr, congrArg State.toBlock h⟩

/-- A completed `CRC.ENCODE` was given `C.NITEMS` items, returned the payload's bits and then the check bits, and left in
`C.R` the remainder whose bits those are. -/
theorem crcEncode_completes {payload : Items} {w : Nat} {s t : State} {cw : Bits}
    (h : Completes (.crcEncode payload w) s [.bits cw] t) :
    payload.length = s.c.nitems ∧ t.c.r = encodeRemainder switches s.c payload w ∧
      cw = flatten payload w ++ toBits t.c.r s.c.degree := by
  rw [Completes, exec_crcEncode] at h
  obtain ⟨hr, hb⟩ := response_block_of_answer h
  rcases opCrcEncode_cases (rfl : opCrcEncode switches payload w s.toBlock = _) with
    ⟨-, ho⟩ | ⟨-, -, ho⟩ | ⟨-, -, -, ho⟩ | ⟨-, -, -, -, ho⟩ | ⟨-, -, -, -, -, ho⟩ | ⟨-, -, hl, -, -, ho⟩
  iterate 5 (· simp [ho] at hr)
  rw [ho] at hr hb
  have hc : t.c.r = encodeRemainder switches s.c payload w := congrArg (fun k : Block => k.c.r) hb.symm
  refine ⟨hl, hc, ?_⟩
  rw [hc]
  simpa using hr.symm

/-- Settles O54: a completed encoding gives the codeword as a concatenation, whose front part has `NITEMS·W` bits and
whose remainder fits its `p` places. -/
theorem codewordLayout : Obligations.CodewordLayout := by
  intro payload w s t cw hv hc hcompletes
  obtain ⟨hl, hr, rfl⟩ := crcEncode_completes hcompletes
  have hfront : (flatten payload w).length = s.c.nitems * w := by rw [flatten_length, hl]
  have hfit : t.c.r < 2 ^ s.c.degree := hr ▸ encodeRemainder_lt switches payload w hv hc
  refine ⟨?_, List.take_left' hfront, List.drop_left' hfront, fromBits_append_toBits _ hfit⟩
  rw [List.length_append, hfront, toBits_length]

end Sys2Proof.Machine

/-! ## Integer to bit sequence (40_bit_conversion.md R67) -/

namespace Sys2Proof.Machine

/-- A sequence is the encoding, in its own length, of the number it reads as. -/
theorem toBits_fromBits (B : Bits) : toBits (fromBits B) B.length = B := by
  refine eq_of_bitAt_eq (toBits_length _ _) fun i hi => ?_
  rw [toBits_length] at hi
  have hpos : B.length - 1 - i < B.length := by omega
  have hweight : B.length - 1 - (B.length - 1 - i) = i := by omega
  simp [bitAt_toBits, testBit_fromBits, hi, hpos, hweight]

/-- A position of an encoding as arithmetic on the value. -/
theorem toNat_bitAt_toBits (v : Nat) {N i : Nat} (hi : i < N) :
    (bitAt (toBits v N) i).toNat = v / 2 ^ (N - 1 - i) % 2 := by
  rw [bitAt_toBits, decide_eq_true hi, Bool.true_and, Nat.toNat_testBit]

/-- The bits of weight `2^N` and above are dropped: reading the encoding back gives `v % 2^N`. -/
theorem toBits_mod_two_pow (v N : Nat) : toBits (v % 2 ^ N) N = toBits v N := by
  simpa using toBits_fromBits (toBits v N)

/-- A short value is filled with zeros in front: they add nothing to the number the sequence reads as. -/
theorem toBits_add_length {v N : Nat} (k : Nat) (hv : v < 2 ^ N) : toBits v (k + N) = zeros k ++ toBits v N := by
  have hread : fromBits (zeros k ++ toBits v N) = v := by
    rw [fromBits_append, fromBits_zeros, Nat.zero_mul, Nat.zero_add, fromBits_toBits, Nat.mod_eq_of_lt hv]
  simpa [hread] using toBits_fromBits (zeros k ++ toBits v N)

/-- Settles O25: the positions from `bitAt_toBits`; truncation and zero fill because a sequence is determined by its
length and the number it reads as. -/
theorem toBitsKeepsTheLowBitsMsbFirst : Obligations.ToBitsKeepsTheLowBitsMsbFirst :=
  ⟨toBits_length, fun v _ _ hi => toNat_bitAt_toBits v hi, toBits_mod_two_pow,
    fun _ _ k hv => toBits_add_length k hv, fun _ => rfl, by decide⟩

end Sys2Proof.Machine

/-! ## The bit-length of a generator and CRC.INIT (00_scope.md R9; 43_crc_codec.md R103, R106) -/

namespace Sys2Proof.Machine

/-- The numbers of bit-length `k + 1` are those from `2^k` on and below `2^(k + 1)`. -/
theorem bitlen_eq_succ_iff (v k : Nat) : bitlen v = k + 1 ↔ 2 ^ k ≤ v ∧ v < 2 ^ (k + 1) := by
  have hlow := lt_two_pow_iff_bitlen_le v k
  have hhigh := lt_two_pow_iff_bitlen_le v (k + 1)
  omega

/-- The highest set bit of a number stands one place below its bit-length. -/
theorem bitlen_of_highest_bit {g k : Nat} (hk : g.testBit k = true) (habove : ∀ j, k < j → g.testBit j = false) :
    bitlen g = k + 1 :=
  (bitlen_eq_succ_iff g k).2 ⟨Nat.ge_two_pow_of_testBit hk, Nat.lt_pow_two_of_testBit g habove⟩

/-- A nonzero number stands between the powers of two that its bit-length names. -/
theorem two_pow_bitlen_bounds {g : Nat} (hg : g ≠ 0) : 2 ^ (bitlen g - 1) ≤ g ∧ g < 2 ^ (bitlen g - 1 + 1) :=
  (bitlen_eq_succ_iff g _).1 (by simp [bitlen, hg])

/-- `bitlen` on the generator of CRC-16. -/
theorem bitlen_crc16 : bitlen 0x18005 = 17 := (bitlen_eq_succ_iff _ 16).2 (by decide)

/-- `bitlen` on the generator `x^3 + x + 1`. -/
theorem bitlen_crc3 : bitlen 0b1011 = 4 := (bitlen_eq_succ_iff _ 3).2 (by decide)

/-- `CRC.INIT` at the spec's configuration, with a generator of degree at least 1: slot `C` is written whole. -/
theorem opCrcInit_switches {g : Nat} (nitems : Nat) (k : Block) (hg : 2 ≤ g) :
    opCrcInit switches g nitems k =
      complete [] (k.setC { valid := true, g := g, nitems := nitems, crcLen := bitlen g, r := 0 }) := by
  simp [opCrcInit, Nat.not_lt.2 hg]

theorem exec_crcInit (g nitems : Nat) (s : State) :
    exec (.crcInit g nitems) s = answer (opCrcInit switches g nitems s.toBlock) s := rfl

/-- Slot `C` after `CRC.INIT` with a generator of degree at least 1. -/
theorem crcInit_slot {g nitems : Nat} {s t : State} (hg : 2 ≤ g) (h : exec (.crcInit g nitems) s = .next t) :
    t.c = { valid := true, g := g, nitems := nitems, crcLen := bitlen g, r := 0 } := by
  rw [exec_crcInit, opCrcInit_switches nitems _ hg, answer_complete, Host.Outcome.next.injEq] at h
  rw [← h]
  rfl

/-- Settles O51: `CRC.INIT` stores the bit-length, which bounds the generator by powers of two; the check bits of a
completed encoding are the tail that `crcEncode_completes` names, as long as the stored degree. -/
theorem crcLenIsTheGeneratorsBitLength : Obligations.CrcLenIsTheGeneratorsBitLength := by
  refine ⟨fun g k hk habove => bitlen_of_highest_bit hk habove, ?_, ?_, bitlen_crc16, bitlen_crc3⟩
  · intro g nitems s t hg hinit
    rw [crcInit_slot hg hinit]
    exact ⟨rfl, two_pow_bitlen_bounds (by omega)⟩
  · intro g nitems payload w s t u cw hg hinit hencode
    obtain ⟨-, -, hcw⟩ := crcEncode_completes hencode
    refine ⟨toBits u.c.r t.c.degree, hcw, ?_⟩
    rw [toBits_length, crcInit_slot hg hinit]
    refine ⟨rfl, ?_, ?_⟩
    · rintro rfl
      simp [bitlen_crc16]
    · rintro rfl
      simp [bitlen_crc3]

end Sys2Proof.Machine

/-! ## CRC.DECODE (43_crc_codec.md R105, R110) -/

namespace Sys2Proof.Machine

theorem flatten_append (A B : Items) (w : Nat) : flatten (A ++ B) w = flatten A w ++ flatten B w :=
  List.flatMap_append

@[simp] theorem unflatten_length (received : Bits) (w n : Nat) : (unflatten received w n).length = n := by
  simp [unflatten]

/-- One more group is one more item behind the earlier ones. -/
theorem unflatten_succ (received : Bits) (w n : Nat) :
    unflatten received w (n + 1) = unflatten received w n ++ [fromBits (memRead received (n * w) w)] := by
  simp [unflatten, List.range_succ]

theorem memRead_length {S : Bits} {i k : Nat} (h : i + k ≤ S.length) : (memRead S i k).length = k := by
  rw [memRead, List.length_take_of_le (by rw [List.length_drop]; omega)]

/-- Reading inside the first `m` positions does not see the others. -/
theorem memRead_take (S : Bits) {i k m : Nat} (h : i + k ≤ m) : memRead (S.take m) i k = memRead S i k := by
  rw [memRead, memRead, List.drop_take, List.take_take, Nat.min_eq_left (by omega)]

/-- The items of a received sequence, written out again, are its literal front part. -/
theorem flatten_unflatten {received : Bits} {w n : Nat} (h : n * w ≤ received.length) :
    flatten (unflatten received w n) w = received.take (n * w) := by
  induction n with
  | zero => simp [unflatten]
  | succ n ih =>
    rw [Nat.succ_mul] at h ⊢
    have hgroup : toBits (fromBits (memRead received (n * w) w)) w = memRead received (n * w) w := by
      simpa only [memRead_length h] using toBits_fromBits (memRead received (n * w) w)
    rw [unflatten_succ, flatten_append, ih (by omega), flatten_cons, flatten_nil, List.append_nil, hgroup,
      List.take_add, memRead]

/-- The items are a function of the first `n·w` bits alone. -/
theorem unflatten_take (received : Bits) (w n : Nat) :
    unflatten (received.take (n * w)) w n = unflatten received w n := by
  refine List.map_congr_left fun k hk => congrArg fromBits (memRead_take received ?_)
  calc k * w + w = (k + 1) * w := (Nat.succ_mul k w).symm
    _ ≤ n * w := Nat.mul_le_mul_right w (List.mem_range.1 hk)

/-- The whole of `CRC.DECODE` at any configuration: `NotConfigured`, the three malformed inputs in the order of their
tests, or the items and the syndrome with the syndrome left in `C.R`. -/
theorem opCrcDecode_cases {cfg : Config} {received : Bits} {w : Nat} {k : Block} {o : Effect}
    (h : opCrcDecode cfg received w k = o) :
    (k.c.valid = false ∧ o = raise (.notConfigured .C) k) ∨
    (k.c.valid = true ∧ w = 0 ∧ o = raise (.malformedInput .itemWidth) k) ∨
    (k.c.valid = true ∧ w ≠ 0 ∧ received.length ≠ k.c.nitems * w + k.c.degree ∧
      o = raise (.malformedInput .receivedLength) k) ∨
    (k.c.valid = true ∧ w ≠ 0 ∧ received.length = k.c.nitems * w + k.c.degree ∧
      overLmax cfg received.length = true ∧ o = raise (.malformedInput .overLength) k) ∨
    (k.c.valid = true ∧ w ≠ 0 ∧ received.length = k.c.nitems * w + k.c.degree ∧
      overLmax cfg received.length = false ∧
      o = complete [.items (unflatten received w k.c.nitems), .nat (crcDivideRemainder cfg k.c received)]
        (k.setCR (crcDivideRemainder cfg k.c received))) := by
  rcases ifConfigured_cases h with ⟨hv, hk⟩ | ⟨hv, hk⟩
  · refine .inr ?_
    split_ifs at hk with hw hl hm
    · exact .inl ⟨hv, hw, hk⟩
    · exact .inr (.inl ⟨hv, hw, hl, hk⟩)
    · exact .inr (.inr (.inl ⟨hv, hw, not_not.1 hl, hm, hk⟩))
    · exact .inr (.inr (.inr ⟨hv, hw, not_not.1 hl, Bool.eq_false_of_not_eq_true hm, hk⟩))
  · exact .inl ⟨hv, hk⟩

theorem exec_crcDecode (received : Bits) (w : Nat) (s : State) :
    exec (.crcDecode received w) s = answer (opCrcDecode switches received w s.toBlock) s := rfl

/-- A completed `CRC.DECODE` was given `C.NITEMS` groups and the check bits, returned the items of the groups and the
remainder of the entire sequence, and left that remainder in `C.R`. -/
theorem crcDecode_completes {received : Bits} {w : Nat} {s t : State} {v : Items} {syndrome : Nat}
    (h : Completes (.crcDecode received w) s [.items v, .nat syndrome] t) :
    received.length = s.c.nitems * w + s.c.degree ∧ v = unflatten received w s.c.nitems ∧
      syndrome = crcDivideRemainder switches s.c received ∧ t.c.r = syndrome := by
  rw [Completes, exec_crcDecode] at h
  obtain ⟨hr, hb⟩ := response_block_of_answer h
  rcases opCrcDecode_cases (rfl : opCrcDecode switches received w s.toBlock = _) with
    ⟨-, ho⟩ | ⟨-, -, ho⟩ | ⟨-, -, -, ho⟩ | ⟨-, -, -, -, ho⟩ | ⟨-, -, hl, -, ho⟩
  iterate 4 (· simp [ho] at hr)
  rw [ho] at hr hb
  have hc : t.c.r = crcDivideRemainder switches s.c received := congrArg (fun k : Block => k.c.r) hb.symm
  obtain ⟨rfl, rfl⟩ : unflatten received w s.c.nitems = v ∧ crcDivideRemainder switches s.c received = syndrome := by
    simpa using hr
  exact ⟨hl, rfl, rfl, hc⟩

/-- Settles O58: the items of a completed decode are the groups of the received sequence, which written out again give its
front part, and which read nothing behind that part. -/
theorem decodedPayloadIsTheLiteralBits : Obligations.DecodedPayloadIsTheLiteralBits := by
  constructor
  · intro received w s t v syndrome hdecode
    obtain ⟨hl, rfl, -, -⟩ := crcDecode_completes hdecode
    exact ⟨unflatten_length _ _ _, flatten_unflatten (by omega)⟩
  · intro B B' w s t t' v v' y y' hdecode hdecode' hfront
    obtain ⟨-, rfl, -, -⟩ := crcDecode_completes hdecode
    obtain ⟨-, rfl, -, -⟩ := crcDecode_completes hdecode'
    rw [← unflatten_take B, hfront, unflatten_take]

end Sys2Proof.Machine

/-! ## What is no fault (60_exceptions.md R123) -/

namespace Sys2Proof.Machine

/-- An operation whose effect on the registers is a completion completes, with those results. -/
theorem completes_of_answer_complete {i : Instr} {s : State} {vs : List Value} {k : Block}
    (h : exec i s = answer (complete vs k) s) : ∃ t, Completes i s vs t :=
  ⟨{ s with toBlock := k }, by rw [Completes, h, answer_complete]⟩

/-- `CRC.DECODE` at the spec's configuration, with a sequence of the right length: the syndrome is a result and the new
`C.R`, and no test reads it. -/
theorem opCrcDecode_switches {received : Bits} {w : Nat} {k : Block} (hv : k.c.valid = true) (hw : 1 ≤ w)
    (hl : received.length = k.c.nitems * w + k.c.degree) :
    opCrcDecode switches received w k =
      complete [.items (unflatten received w k.c.nitems), .nat (crcDivideRemainder switches k.c received)]
        (k.setCR (crcDivideRemainder switches k.c received)) := by
  have hvalid : k.slotValid .C = true := hv
  have hlength : ¬ received.length ≠ k.c.nitems * w + (k.c.crcLen - 1) := not_not.2 hl
  rw [opCrcDecode, ifConfigured_true hvalid, if_neg (Nat.ne_of_gt hw), if_neg hlength, overLmax_switches,
    if_neg Bool.false_ne_true]

/-- `LFSR.INIT` at the spec's configuration, with a seed that fits a nonzero width: slot `L` is written whole, and the
polynomial meets no test. -/
theorem opLfsrInit_switches (g : Nat) {n seed : Nat} (k : Block) (hn : 1 ≤ n) (hseed : seed < 2 ^ n) :
    opLfsrInit switches g n seed k =
      complete [] (k.setL { valid := true, n := n, g := g % 2 ^ (n + 1), r := seed }) := by
  have hsign : ¬ (seed : Int) < 0 := by omega
  simp [opLfsrInit, hsign, Nat.ne_of_gt hn, Nat.not_le.2 hseed]

theorem exec_lfsrInit (g n : Nat) (seed : Int) (s : State) :
    exec (.lfsrInit g n seed) s = answer (opLfsrInit switches g n seed s.toBlock) s := rfl

/-- `DIV.INIT` at the spec's configuration, with a nonzero width: slot `D` is written whole, and the polynomial meets no
test. -/
theorem opDivInit_switches (g : Nat) {p : Nat} (k : Block) (hp : 1 ≤ p) :
    opDivInit switches g p k = complete [] (k.setD { valid := true, p := p, g := g % 2 ^ (p + 1), r := 0 }) := by
  simp [opDivInit, Nat.ne_of_gt hp]

theorem exec_divInit (g p : Nat) (s : State) :
    exec (.divInit g p) s = answer (opDivInit switches g p s.toBlock) s := rfl

/-- Settles O22: each of the four operations is a completion of the block, with no condition on the syndrome or on the
polynomial beyond the codec's `2 ≤ g`. -/
theorem nonzeroSyndromeAndOddPolynomialsAreNoFault : Obligations.NonzeroSyndromeAndOddPolynomialsAreNoFault := by
  refine ⟨?_, ?_, ?_, ?_⟩
  · intro s received w hv hw hl
    exact ⟨_, _, completes_of_answer_complete (by rw [exec_crcDecode, opCrcDecode_switches hv hw hl])⟩
  · intro s g n seed hn hseed
    exact completes_of_answer_complete (by rw [exec_lfsrInit, opLfsrInit_switches g _ hn hseed])
  · intro s g p hp
    exact completes_of_answer_complete (by rw [exec_divInit, opDivInit_switches g _ hp])
  · intro s g nitems hg
    exact completes_of_answer_complete (by rw [exec_crcInit, opCrcInit_switches nitems _ hg])

end Sys2Proof.Machine

/-! ## Operations start from a cleared register (70_reset_and_hazards.md R134) -/

namespace Sys2Proof.Machine

/-- One operation run on the registers `k` and on the registers `k'` ends alike: either it is carried out with one and
the same effect, whose registers satisfy `P`, or it takes the same fault on both, and each keeps its own registers. -/
def EndsAlike (P : Block → Prop) (k k' : Block) (e e' : Effect) : Prop :=
  (e = e' ∧ (∃ vs, e.response = .ok vs) ∧ P e.block) ∨ ∃ f, e = raise f k ∧ e' = raise f k'

/-- The machine's meaning of an operation is the block's at the spec's configuration, answered to the host. -/
theorem exec_eq_answer_operate (i : Instr) (s : State) : exec i s = answer (operate switches i s.toBlock) s := by
  cases i <;> rfl

namespace EndsAlike

variable {P Q : Block → Prop} {k k' : Block} {e e' : Effect}

theorem of_raise (f : FaultStatus) : EndsAlike P k k' (raise f k) (raise f k') := .inr ⟨f, rfl, rfl⟩

theorem of_ok {vs : List Value} (hr : e.response = .ok vs) (hP : P e.block) : EndsAlike P k k' e e :=
  .inl ⟨rfl, ⟨vs, hr⟩, hP⟩

/-- A fault test that reads the same on both: taken together. -/
theorem of_test {c : Prop} [Decidable c] (f : FaultStatus) (h : EndsAlike P k k' e e') :
    EndsAlike P k k' (if c then raise f k else e) (if c then raise f k' else e') := by
  by_cases hc : c
  · simpa [hc] using of_raise f
  · simpa [hc] using h

theorem of_ifConfigured {slot : SlotName} (hv : k'.slotValid slot = k.slotValid slot) (h : EndsAlike P k k' e e') :
    EndsAlike P k k' (ifConfigured slot k e) (ifConfigured slot k' e') := by
  rw [ifConfigured, ifConfigured, hv]
  split
  · exact h
  · exact of_raise _

theorem mono (h : EndsAlike P k k' e e') (hPQ : ∀ b, P b → Q b) : EndsAlike Q k k' e e' :=
  h.imp_left fun ⟨heq, hr, hP⟩ => ⟨heq, hr, hPQ _ hP⟩

/-- What ending alike at the spec's configuration means for two states that differ in the registers only. -/
theorem next_or_faults {i : Instr} {s : State}
    (h : EndsAlike P s.toBlock k' (operate switches i s.toBlock) (operate switches i k')) :
    (∃ t, exec i s = .next t ∧ exec i { s with toBlock := k' } = .next t ∧ P t.toBlock) ∨
      ∃ f, Faults i s f ∧ Faults i { s with toBlock := k' } f := by
  have he := exec_eq_answer_operate i s
  have he' := exec_eq_answer_operate i { s with toBlock := k' }
  rcases h with ⟨heq, -, hP⟩ | ⟨f, hf, hf'⟩
  · exact .inl ⟨_, he, by rw [he', ← heq]; rfl, hP⟩
  · exact .inr ⟨f, by rw [Faults, he, hf, answer_raise], he'.trans ((answer_eq_fault_iff _ f _).2 hf')⟩

end EndsAlike

/-- A division reads `D.VALID`, `D.P` and `D.G` but not `D.R`, and leaves there what the loop from 0 leaves. -/
theorem operate_division_endsAlike (cfg : Config) {d : Bits} {i : Instr}
    (hi : i = .divDivide d ∨ i = .divQuot d ∨ i = .divRem d) (k : Block) (v : Nat) :
    EndsAlike (· = k.setDR (divLoop cfg k.d.g k.d.p 0 d).2) k (k.setDR v)
      (operate cfg i k) (operate cfg i (k.setDR v)) := by
  rcases hi with rfl | rfl | rfl <;>
    exact .of_ifConfigured rfl <| .of_test _ <| .of_test _ <| .of_ok rfl rfl

theorem opCrcEncode_endsAlike (cfg : Config) (payload : Items) (w : Nat) (k : Block) (v : Nat) :
    EndsAlike (· = k.setCR (divLoop cfg k.c.g k.c.degree 0 (flatten payload w ++ zeros k.c.degree)).2) k (k.setCR v)
      (opCrcEncode cfg payload w k) (opCrcEncode cfg payload w (k.setCR v)) :=
  .of_ifConfigured rfl <| .of_test _ <| .of_test _ <| .of_test _ <| .of_test _ <| .of_ok rfl rfl

theorem opCrcDecode_endsAlike (cfg : Config) (received : Bits) (w : Nat) (k : Block) (v : Nat) :
    EndsAlike (· = k.setCR (divLoop cfg k.c.g k.c.degree 0 received).2) k (k.setCR v)
      (opCrcDecode cfg received w k) (opCrcDecode cfg received w (k.setCR v)) :=
  .of_ifConfigured rfl <| .of_test _ <| .of_test _ <| .of_test _ <| .of_ok rfl rfl

/-- Every operation takes a fault, or is carried out; then only one of slot `L` other than `LFSR.GET` may have changed
slot `L`. -/
theorem operate_endsAlike (cfg : Config) (i : Instr) (k : Block) :
    EndsAlike (fun b => slotOf i ≠ .L ∨ i = .lfsrGet → b.l = k.l) k k (operate cfg i k) (operate cfg i k) := by
  cases i with
  | lfsrInit g n seed => exact .of_test _ <| .of_test _ <| .of_test _ <| .of_test _ <| .of_ok rfl (by simp [slotOf])
  | lfsrSet v => exact .of_ifConfigured rfl <| .of_test _ <| .of_ok rfl (by simp [slotOf])
  | lfsrGet => exact .of_ifConfigured rfl <| .of_ok rfl fun _ => rfl
  | lfsrStep stateFlag => exact .of_ifConfigured rfl <| .of_ok rfl (by simp [slotOf])
  | lfsrSteps count => exact .of_ifConfigured rfl <| .of_test _ <| .of_ok rfl (by simp [slotOf])
  | divInit g p => exact .of_test _ <| .of_test _ <| .of_ok rfl fun _ => rfl
  | divDivide d | divQuot d | divRem d =>
    exact (operate_division_endsAlike cfg (d := d) (by simp) k k.d.r).mono fun _ hb _ => hb ▸ rfl
  | crcInit g nitems => exact .of_test _ <| .of_test _ <| .of_ok rfl fun _ => rfl
  | crcEncode payload w => exact (opCrcEncode_endsAlike cfg payload w k k.c.r).mono fun _ hb _ => hb ▸ rfl
  | crcDecode received w => exact (opCrcDecode_endsAlike cfg received w k k.c.r).mono fun _ hb _ => hb ▸ rfl

/-- Operations of the other slots, `LFSR.GET` and every operation that faults leave slot `L` as it was. -/
theorem exec_keeps_l {i : Instr} {s t : State} (h : exec i s = .next t)
    (hi : slotOf i ≠ .L ∨ i = .lfsrGet ∨ ∃ f, t.responses = s.responses ++ [.fault f]) : t.l = s.l := by
  rw [exec_eq_answer_operate, answer_eq, Host.Outcome.next.injEq] at h
  subst h
  rcases operate_endsAlike switches i s.toBlock with ⟨-, ⟨vs, hok⟩, hl⟩ | ⟨f, hraise, -⟩
  · rcases hi with hslot | hget | ⟨f, hf⟩
    · exact hl (.inl hslot)
    · exact hl (.inr hget)
    · simp [hok] at hf
  · rw [hraise]
    rfl

/-- Settles O49: a division or a codec operation ends alike on any two values of its register, because neither its fault
tests nor the loop from 0 read it; the last clause is what operations leave of slot `L`. -/
theorem divisionsStartFromAClearedRegister : Obligations.DivisionsStartFromAClearedRegister := by
  refine ⟨?_, ?_, ?_, fun i s t h hi => congrArg LfsrSlot.r (exec_keeps_l h hi)⟩
  · intro d s v i hi
    exact ((operate_division_endsAlike switches hi s.toBlock v).mono fun _ hb => congrArg Block.d hb).next_or_faults
  · intro payload w s v
    exact ((opCrcEncode_endsAlike switches payload w s.toBlock v).mono fun _ hb => congrArg Block.c hb).next_or_faults
      (i := .crcEncode payload w)
  · intro received w s v
    exact ((opCrcDecode_endsAlike switches received w s.toBlock v).mono fun _ hb => congrArg Block.c hb).next_or_faults
      (i := .crcDecode received w)

end Sys2Proof.Machine

/-! ## The command word (30_encoding.md R51 to R60) -/

namespace Sys2Proof

open Machine

/-- The field `op` of an operation's command word (30_encoding.md R52). -/
def opcode : Instr → Nat
  | .lfsrInit _ _ _ => 0x0
  | .lfsrSet _      => 0x1
  | .lfsrGet        => 0x2
  | .lfsrStep _     => 0x3
  | .lfsrSteps _    => 0x4
  | .divInit _ _    => 0x5
  | .divDivide _    => 0x6
  | .divQuot _      => 0x7
  | .divRem _       => 0x8
  | .crcInit _ _    => 0x9
  | .crcEncode _ _  => 0xA
  | .crcDecode _ _  => 0xB

/-- The field `s` of an operation's command word (30_encoding.md R54). -/
def modifier : Instr → Bool
  | .lfsrStep stateFlag => stateFlag
  | _                   => false

/-- The three fields are all of a command word. -/
theorem word_ext {v w : CommandWord} (hr : reservedField v = reservedField w) (hs : stateFlagField v = stateFlagField w)
    (ho : opField v = opField w) : v = w := by
  have hbit : v.toNat / 16 % 2 = w.toNat / 16 % 2 := by
    simpa [stateFlagField, Nat.toNat_testBit] using congrArg Bool.toNat hs
  unfold reservedField at hr
  unfold opField at ho
  exact BitVec.eq_of_toNat_eq (by omega)

theorem fields_encode (i : Instr) : reservedField (encode i).word = 0 ∧ stateFlagField (encode i).word = modifier i ∧
    opField (encode i).word = opcode i := by
  cases i with
  | lfsrStep stateFlag => cases stateFlag <;> decide
  | _ => simp only [encode, modifier, opcode]; decide

theorem word_eq_encode_iff (w : CommandWord) (i : Instr) :
    w = (encode i).word ↔ reservedField w = 0 ∧ stateFlagField w = modifier i ∧ opField w = opcode i := by
  obtain ⟨hr, hs, ho⟩ := fields_encode i
  constructor
  · rintro rfl
    exact ⟨hr, hs, ho⟩
  · rintro ⟨hr', hs', ho'⟩
    exact word_ext (hr'.trans hr.symm) (hs'.trans hs.symm) (ho'.trans ho.symm)

/-- The operation map, read backwards: the opcode names the operation, and its operands are those of the record. -/
theorem operation_eq_some_iff (op : Nat) (b : Bool) (o : Operands) (i : Instr) :
    operation op b o = some i ↔ op = opcode i ∧ HasOperands i o ∧ (op = 3 → b = modifier i) := by
  unfold operation
  split <;> cases i <;> simp_all [opcode, HasOperands, modifier]

/-- The decoder answers what the operation map gives, unless a reserved bit or a stray state flag is set. -/
theorem decode_eq_ok_iff_operation (t : Transaction) (i : Instr) :
    decode t = .ok i ↔ reservedField t.word = 0 ∧
      operation (opField t.word) (stateFlagField t.word) t.operands = some i ∧
      (stateFlagField t.word = true → opField t.word = 3) := by
  unfold decode
  split
  · simp [*]
  · cases operation (opField t.word) (stateFlagField t.word) t.operands with
    | none => simp
    | some j =>
      dsimp only
      split
      · simp_all
      · rename_i hr hstray
        have hflag := not_and_not_right.1 hstray
        simpa [not_not.1 hr] using fun _ => hflag

theorem modifier_eq_false {i : Instr} (h : opcode i ≠ 3) : modifier i = false := by
  cases i with
  | lfsrStep _ => exact absurd rfl h
  | _ => rfl

theorem decode_eq_ok_iff (t : Transaction) (i : Instr) :
    decode t = .ok i ↔ t.word = (encode i).word ∧ HasOperands i t.operands := by
  rw [decode_eq_ok_iff_operation, operation_eq_some_iff, word_eq_encode_iff]
  constructor
  · rintro ⟨hr, ⟨ho, hi, hs⟩, hstray⟩
    refine ⟨⟨hr, ?_, ho⟩, hi⟩
    by_cases h3 : opField t.word = 3
    · exact hs h3
    · rw [modifier_eq_false (ho ▸ h3), Bool.eq_false_iff]
      exact mt hstray h3
  · rintro ⟨⟨hr, hs, ho⟩, hi⟩
    refine ⟨hr, ⟨ho, hi, fun _ => hs⟩, fun hflag => ?_⟩
    by_contra h3
    rw [hs, modifier_eq_false (ho ▸ h3)] at hflag
    exact Bool.false_ne_true hflag

theorem hasOperands_encode (i : Instr) : HasOperands i (encode i).operands := by
  cases i <;> simp [HasOperands, encode]

theorem decode_encode (i : Instr) : decode (encode i) = .ok i :=
  (decode_eq_ok_iff _ i).2 ⟨rfl, hasOperands_encode i⟩

/-- Settles O1: the operation map read backwards names the fields of the word and the operands. -/
theorem decodeReadsExactlyTheEncodedOperation : Obligations.DecodeReadsExactlyTheEncodedOperation :=
  ⟨decode_encode, decode_eq_ok_iff⟩

theorem operation_eq_none_iff (op : Nat) (b : Bool) (o : Operands) : operation op b o = none ↔ 12 ≤ op := by
  constructor
  · intro h
    by_contra hop
    interval_cases op <;> simp [operation] at h
  · intro h
    unfold operation
    split
    iterate 12 (· omega)
    rfl

/-- The decoder rejects a word for one of the three causes of 30_encoding.md R55. -/
theorem decode_eq_error_iff (t : Transaction) :
    (∃ r, decode t = .error r) ↔ reservedField t.word ≠ 0 ∨ 12 ≤ opField t.word ∨
      (stateFlagField t.word = true ∧ opField t.word ≠ 3) := by
  rw [← operation_eq_none_iff _ (stateFlagField t.word) t.operands]
  unfold decode
  split
  · simp [*]
  · cases operation (opField t.word) (stateFlagField t.word) t.operands with
    | none => simp
    | some i =>
      dsimp only
      split <;> simp_all

theorem toNat_extractLsb'_op (w : CommandWord) : (w.extractLsb' 0 4).toNat = opField w := by
  simp [opField]

theorem extractLsb'_reserved_eq_zero_iff (w : CommandWord) : w.extractLsb' 5 3 = 0#3 ↔ reservedField w = 0 := by
  have hw : w.toNat < 256 := w.isLt
  rw [← BitVec.toNat_inj, BitVec.extractLsb'_toNat, Nat.shiftRight_eq_div_pow, reservedField]
  simp
  omega

theorem extractLsb'_stateFlag_eq_one_iff (w : CommandWord) : w.extractLsb' 4 1 = 1#1 ↔ stateFlagField w = true := by
  rw [← BitVec.toNat_inj, BitVec.extractLsb'_toNat, Nat.shiftRight_eq_div_pow, stateFlagField,
    Nat.testBit_eq_decide_div_mod_eq]
  simp

theorem extractLsb'_op_eq_three_iff (w : CommandWord) : w.extractLsb' 0 4 = 3#4 ↔ opField w = 3 := by
  rw [← BitVec.toNat_inj, toNat_extractLsb'_op]
  rfl

/-- A word that a row of the opcode table covers is the command word of an operation. -/
theorem exists_encode_of_covers {w : CommandWord} {r : OpcodeRow} (hr : r ∈ opcodeTable) (hc : r.covers w = true) :
    ∃ i, w = (encode i).word := by
  have hstep : ∀ v : CommandWord, (v &&& 0xEF#8 == 0x03#8) = true ↔ v = 0x03#8 ∨ v = 0x13#8 := by decide
  have hfull : ∀ m : CommandWord, (w &&& 0xFF#8 == m) = true ↔ w = m := fun m => by
    rw [show w &&& 0xFF#8 = w from BitVec.and_allOnes, beq_iff_eq]
  simp only [opcodeTable, List.mem_cons, List.not_mem_nil, or_false] at hr
  rcases hr with rfl | rfl | rfl | rfl | rfl | rfl | rfl | rfl | rfl | rfl | rfl | rfl <;>
    simp only [OpcodeRow.covers, hfull, hstep] at hc
  · exact ⟨.lfsrInit 0 0 0, hc⟩
  · exact ⟨.lfsrSet 0, hc⟩
  · exact ⟨.lfsrGet, hc⟩
  · exact hc.elim (fun h => ⟨.lfsrStep false, h⟩) fun h => ⟨.lfsrStep true, h⟩
  · exact ⟨.lfsrSteps 0, hc⟩
  · exact ⟨.divInit 0 0, hc⟩
  · exact ⟨.divDivide [], hc⟩
  · exact ⟨.divQuot [], hc⟩
  · exact ⟨.divRem [], hc⟩
  · exact ⟨.crcInit 0 0, hc⟩
  · exact ⟨.crcEncode [] 0, hc⟩
  · exact ⟨.crcDecode [] 0, hc⟩

/-- An operation's command word belongs to its own row of the opcode table and to no other. -/
theorem rowsOf_encode (i : Instr) : Laws.Encoding.rowsOf (encode i).word = [i.mnemonic] := by
  cases i with
  | lfsrInit g n seed => exact Laws.Encoding.lfsrInit g n seed
  | lfsrSet v => exact Laws.Encoding.lfsrSet v
  | lfsrGet => exact Laws.Encoding.lfsrGet
  | lfsrStep stateFlag => exact Laws.Encoding.lfsrStep stateFlag
  | lfsrSteps count => exact Laws.Encoding.lfsrSteps count
  | divInit g p => exact Laws.Encoding.divInit g p
  | divDivide d => exact Laws.Encoding.divDivide d
  | divQuot d => exact Laws.Encoding.divQuot d
  | divRem d => exact Laws.Encoding.divRem d
  | crcInit g nitems => exact Laws.Encoding.crcInit g nitems
  | crcEncode payload w => exact Laws.Encoding.crcEncode payload w
  | crcDecode received w => exact Laws.Encoding.crcDecode received w

/-- The command word alone decides whether it is legal. -/
theorem decode_encode_word_ne_error (i : Instr) (o : Operands) (r : Reject) :
    decode ⟨(encode i).word, o⟩ ≠ .error r := by
  intro h
  have herror := (decode_eq_error_iff (encode i)).2 ((decode_eq_error_iff ⟨_, o⟩).1 ⟨r, h⟩)
  simp [decode_encode] at herror

theorem rowsOf_illegal {w : CommandWord} {o : Operands} {r : Reject} (h : decode ⟨w, o⟩ = .error r) :
    Laws.Encoding.rowsOf w = [] := by
  rw [Laws.Encoding.rowsOf, List.map_eq_nil_iff, List.filter_eq_nil_iff]
  intro row hrow hcovers
  obtain ⟨i, rfl⟩ := exists_encode_of_covers hrow hcovers
  exact decode_encode_word_ne_error i o r h

theorem decode_error_iff_extractLsb' (w : CommandWord) (o : Operands) :
    (∃ r, decode ⟨w, o⟩ = .error r) ↔
      w.extractLsb' 5 3 ≠ 0#3 ∨ 12 ≤ (w.extractLsb' 0 4).toNat ∨
        (w.extractLsb' 4 1 = 1#1 ∧ w.extractLsb' 0 4 ≠ 3#4) := by
  simp only [decode_eq_error_iff, ne_eq, extractLsb'_reserved_eq_zero_iff, toNat_extractLsb'_op,
    extractLsb'_stateFlag_eq_one_iff, extractLsb'_op_eq_three_iff]

set_option maxRecDepth 20000 in
theorem illegal_words_count :
    ((List.range 256).filter fun v => (decode ⟨BitVec.ofNat 8 v, {}⟩).toOption.isNone).length = 243 := by
  decide

/-- Settles O3: the three causes are the three fields' tests; the table's rows are those of the encoded operations. -/
theorem illegalCommandWordsAreTheOther243 : Obligations.IllegalCommandWordsAreTheOther243 := by
  refine ⟨decode_error_iff_extractLsb', illegal_words_count, fun w o => ?_⟩
  cases h : decode ⟨w, o⟩ with
  | ok i =>
    obtain ⟨rfl, -⟩ := (decode_eq_ok_iff ⟨w, o⟩ i).1 h
    exact rowsOf_encode i
  | error r => exact rowsOf_illegal h

/-- Settles O2: the word of each line is that of the operation beside it, and every operand is read from the record. -/
theorem thirteenCommandWordsDecodeAsListed : Obligations.ThirteenCommandWordsDecodeAsListed := by
  intro o
  simp only [decode_eq_ok_iff, encode, HasOperands, and_self]

end Sys2Proof

/-! ## What an operation does: the first test that fails, or the effect (60_exceptions.md R118, R121, R124) -/

namespace Sys2Proof.Machine

/-- The first test of an operation that fails, of those behind the test of VALID (60_exceptions.md R124). -/
def operandFault (cfg : Config) (i : Instr) (k : Block) : Option FaultStatus :=
  match i with
  | .lfsrInit _ n seed =>
    if seed < 0 then some (.invalidSeed seed)
    else if n = 0 then some (.badParameter .n)
    else if overNmax cfg n then some (.badParameter .n)
    else if tooWide cfg seed.toNat n then some (.badParameter .seed)
    else none
  | .lfsrSet v => if tooWide cfg v k.l.n then some (.badParameter .s) else none
  | .lfsrGet | .lfsrStep _ => none
  | .lfsrSteps count => if overLmax cfg count then some (.malformedInput .overLength) else none
  | .divInit _ p =>
    if p = 0 then some (.badParameter .p)
    else if overNmax cfg p then some (.badParameter .p)
    else none
  | .divDivide d | .divQuot d | .divRem d =>
    if d = [] then some (.malformedInput .emptyDividend)
    else if overLmax cfg d.length then some (.malformedInput .overLength)
    else none
  | .crcInit g _ =>
    if g < 2 then some (.badParameter .g)
    else if overNmax cfg (bitlen g - 1) then some (.badParameter .g)
    else none
  | .crcEncode payload w =>
    if w = 0 then some (.malformedInput .itemWidth)
    else if payload.length ≠ k.c.nitems then some (.malformedInput .payloadLength)
    else if someItemTooWide payload w then some (.malformedInput .itemValue)
    else if overLmax cfg (k.c.nitems * w + k.c.degree) then some (.malformedInput .overLength)
    else none
  | .crcDecode received w =>
    if w = 0 then some (.malformedInput .itemWidth)
    else if received.length ≠ k.c.nitems * w + k.c.degree then some (.malformedInput .receivedLength)
    else if overLmax cfg received.length then some (.malformedInput .overLength)
    else none

/-- The fault an operation takes, if it takes one: `NotConfigured` comes before every test of an operand
(60_exceptions.md R121, R124). -/
def faultOf (cfg : Config) (i : Instr) (k : Block) : Option FaultStatus :=
  if isInit i = false ∧ k.slotValid (slotOf i) = false then some (.notConfigured (slotOf i)) else operandFault cfg i k

/-- What an operation that passes its tests does. -/
def carryOut (cfg : Config) (i : Instr) (k : Block) : Effect :=
  match i with
  | .lfsrInit g n seed => complete [] (k.setL { valid := true, n := n, g := g % 2 ^ (n + 1), r := seed.toNat })
  | .lfsrSet v => complete [] (k.setLR v)
  | .lfsrGet => complete [.nat k.l.r] k
  | .lfsrStep stateFlag =>
    complete
      (if stateFlag then [.bit (lfsrStep k.l.r k.l.g k.l.n).1, .nat (lfsrStep k.l.r k.l.g k.l.n).2]
        else [.bit (lfsrStep k.l.r k.l.g k.l.n).1])
      (k.setLR (lfsrStep k.l.r k.l.g k.l.n).2)
  | .lfsrSteps count =>
    { block := k.setLR (lfsrRun count k.l.r k.l.g k.l.n).2, response := .ok [],
      emitted := (lfsrRun count k.l.r k.l.g k.l.n).1 }
  | .divInit g p => complete [] (k.setD { valid := true, p := p, g := g % 2 ^ (p + 1), r := 0 })
  | .divDivide d =>
    complete [.bits (division cfg k.d.g k.d.p d).1, .bits (toBits (division cfg k.d.g k.d.p d).2 k.d.p)]
      (k.setDR (division cfg k.d.g k.d.p d).2)
  | .divQuot d =>
    complete [.nat (fromBits (division cfg k.d.g k.d.p d).1)] (k.setDR (division cfg k.d.g k.d.p d).2)
  | .divRem d =>
    complete [.nat (fromBits (toBits (division cfg k.d.g k.d.p d).2 k.d.p))] (k.setDR (division cfg k.d.g k.d.p d).2)
  | .crcInit g nitems => complete [] (k.setC { valid := true, g := g, nitems := nitems, crcLen := bitlen g, r := 0 })
  | .crcEncode payload w =>
    complete [.bits (flatten payload w ++ toBits (encodeRemainder cfg k.c payload w) k.c.degree)]
      (k.setCR (encodeRemainder cfg k.c payload w))
  | .crcDecode received w =>
    complete [.items (unflatten received w k.c.nitems), .nat (crcDivideRemainder cfg k.c received)]
      (k.setCR (crcDivideRemainder cfg k.c received))

section
variable {c : Prop} [Decidable c] {f f' : FaultStatus} {o : Option FaultStatus}

/-- A test in front of others, and what becomes of the first that fails. -/
theorem elim_guard (e : Effect) (h : FaultStatus → Effect) :
    (if c then some f else o).elim e h = if c then h f else o.elim e h := apply_ite (fun o => Option.elim o e h) _ _ _

theorem guard_eq_some_iff : (if c then some f else o) = some f' ↔ (c ∧ f = f') ∨ (¬ c ∧ o = some f') := by
  by_cases h : c <;> simp [h]

theorem guard_eq_none_iff : (if c then some f else o) = none ↔ ¬ c ∧ o = none := by
  by_cases h : c <;> simp [h]

end

theorem faultOf_of_isInit (cfg : Config) {i : Instr} (k : Block) (h : isInit i = true) :
    faultOf cfg i k = operandFault cfg i k := by simp [faultOf, h]

/-- An operation that is not an `INIT` is the rest of it behind the test of VALID. -/
theorem elim_faultOf_of_not_isInit (cfg : Config) {i : Instr} (k : Block) (h : isInit i = false) (e : Effect) :
    (faultOf cfg i k).elim e (raise · k) =
      ifConfigured (slotOf i) k ((operandFault cfg i k).elim e (raise · k)) := by
  cases hv : k.slotValid (slotOf i) <;> simp [faultOf, ifConfigured, h, hv]

/-- An operation is one of two things: a fault that its tests name, or its effect. -/
theorem operate_eq (cfg : Config) (i : Instr) (k : Block) :
    operate cfg i k = (faultOf cfg i k).elim (carryOut cfg i k) (raise · k) := by
  cases i with
  | lfsrInit _ _ _ | divInit _ _ | crcInit _ _ =>
    rw [faultOf_of_isInit cfg k rfl]
    simp only [operandFault, elim_guard]
    rfl
  | crcEncode payload w =>
    rw [elim_faultOf_of_not_isInit cfg k rfl]
    simp only [operandFault, elim_guard]
    by_cases hl : payload.length = k.c.nitems
    · rw [carryOut, ← memWrite_padded_payload w k.c.degree _ hl]
      rfl
    · simp only [operate, opCrcEncode, slotOf, if_pos hl]
  | _ =>
    rw [elim_faultOf_of_not_isInit cfg k rfl]
    simp only [operandFault, elim_guard]
    rfl

theorem carryOut_response (cfg : Config) (i : Instr) (k : Block) : ∃ vs, (carryOut cfg i k).response = .ok vs := by
  cases i <;> exact ⟨_, rfl⟩

theorem operate_eq_raise_iff (cfg : Config) (i : Instr) (k : Block) (f : FaultStatus) :
    operate cfg i k = raise f k ↔ faultOf cfg i k = some f := by
  rw [operate_eq]
  cases faultOf cfg i k with
  | some f' => simp
  | none =>
    obtain ⟨vs, hvs⟩ := carryOut_response cfg i k
    simpa using fun h : carryOut cfg i k = raise f k => by simp [h] at hvs

theorem operate_of_faultOf_eq_none {cfg : Config} {i : Instr} {k : Block} (h : faultOf cfg i k = none) :
    operate cfg i k = carryOut cfg i k := by
  rw [operate_eq, h, Option.elim_none]

theorem operate_response_fault_iff (cfg : Config) (i : Instr) (k : Block) (f : FaultStatus) :
    (operate cfg i k).response = .fault f ↔ faultOf cfg i k = some f := by
  rw [operate_eq]
  cases faultOf cfg i k with
  | some f' => simp
  | none =>
    obtain ⟨vs, hvs⟩ := carryOut_response cfg i k
    simp [hvs]

/-- A fault keeps the registers and emits nothing (60_exceptions.md R118). -/
theorem operate_eq_raise_of_response {cfg : Config} {i : Instr} {k : Block} {f : FaultStatus}
    (h : (operate cfg i k).response = .fault f) : operate cfg i k = raise f k :=
  (operate_eq_raise_iff cfg i k f).2 ((operate_response_fault_iff cfg i k f).1 h)

theorem faultsAt_iff (cfg : Config) (i : Instr) (s : State) (f : FaultStatus) :
    FaultsAt cfg i s f ↔ faultOf cfg i s.toBlock = some f :=
  (answer_eq_fault_iff _ f s).trans (operate_eq_raise_iff cfg i s.toBlock f)

theorem faults_iff (i : Instr) (s : State) (f : FaultStatus) :
    Faults i s f ↔ faultOf switches i s.toBlock = some f := by
  rw [Faults, exec_eq_answer_operate]
  exact faultsAt_iff switches i s f

/-- An operation that passes its tests is answered with its effect. -/
theorem exec_of_faultOf_eq_none {i : Instr} {s : State} (h : faultOf switches i s.toBlock = none) :
    exec i s = answer (carryOut switches i s.toBlock) s := by
  rw [exec_eq_answer_operate, operate_of_faultOf_eq_none h]

theorem completes_iff (i : Instr) (s : State) :
    (∃ vs t, Completes i s vs t) ↔ faultOf switches i s.toBlock = none := by
  constructor
  · rintro ⟨vs, t, h⟩
    rw [Completes, exec_eq_answer_operate] at h
    obtain ⟨hr, -⟩ := response_block_of_answer h
    refine Option.eq_none_iff_forall_ne_some.2 fun f hf => ?_
    rw [← operate_response_fault_iff, hr] at hf
    exact Response.noConfusion hf
  · intro h
    obtain ⟨vs, hvs⟩ := carryOut_response switches i s.toBlock
    exact ⟨vs, _, by rw [Completes, exec_of_faultOf_eq_none h, answer, hvs]⟩

/-! ## When each fault is raised (60_exceptions.md R116 to R124) -/

theorem operandFault_ne_notConfigured (cfg : Config) (i : Instr) (k : Block) (slot : SlotName) :
    operandFault cfg i k ≠ some (.notConfigured slot) := by
  cases i <;> simp only [operandFault, ne_eq, guard_eq_some_iff] <;> simp

theorem faultOf_eq_notConfigured_iff (cfg : Config) (i : Instr) (k : Block) (slot : SlotName) :
    faultOf cfg i k = some (.notConfigured slot) ↔
      isInit i = false ∧ slot = slotOf i ∧ k.slotValid slot = false := by
  rw [faultOf, guard_eq_some_iff, FaultStatus.notConfigured.injEq, and_assoc]
  constructor
  · rintro (⟨hi, hv, rfl⟩ | ⟨-, h⟩)
    · exact ⟨hi, rfl, hv⟩
    · exact absurd h (operandFault_ne_notConfigured cfg i k slot)
  · rintro ⟨hi, rfl, hv⟩
    exact .inl ⟨hi, hv, rfl⟩

/-- A fault other than `NotConfigured`: the slot is configured or the operation is an `INIT`, and a test of the operands
names it. -/
theorem faultOf_eq_some_iff {cfg : Config} {i : Instr} {k : Block} {f : FaultStatus}
    (hf : ∀ slot, f ≠ .notConfigured slot) :
    faultOf cfg i k = some f ↔ (isInit i = true ∨ k.slotValid (slotOf i) = true) ∧ operandFault cfg i k = some f := by
  have hne := hf (slotOf i)
  rw [faultOf, guard_eq_some_iff, not_and_or, Bool.not_eq_false, Bool.not_eq_false]
  simp [hne.symm]

theorem faultOf_eq_none_iff (cfg : Config) (i : Instr) (k : Block) :
    faultOf cfg i k = none ↔ (isInit i = true ∨ k.slotValid (slotOf i) = true) ∧ operandFault cfg i k = none := by
  rw [faultOf, guard_eq_none_iff, not_and_or, Bool.not_eq_false, Bool.not_eq_false]

/-- Settles O18: the test of VALID stands in front of every test of an operand, and no other test raises
`NotConfigured`. -/
theorem notConfiguredExactlyOnInvalidSlots : Obligations.NotConfiguredExactlyOnInvalidSlots := fun i s k =>
  (faults_iff i s _).trans (faultOf_eq_notConfigured_iff switches i s.toBlock k)

/-- Settles O19: among all tests only the first of `LFSR.INIT` raises `InvalidSeed`. -/
theorem invalidSeedExactlyOnNegativeSeeds : Obligations.InvalidSeedExactlyOnNegativeSeeds := by
  intro i s seed
  rw [faults_iff, faultOf_eq_some_iff (by simp)]
  cases i with
  | lfsrInit g n seed' =>
    simp only [operandFault, guard_eq_some_iff]
    simp [isInit]
    rintro rfl
    rfl
  | _ => simp only [operandFault, guard_eq_some_iff]; simp

/-- Settles O20: the tests of the four operations that take a parameter, each behind the ones in front of it. -/
theorem badParameterExactlyOnItsCauses : Obligations.BadParameterExactlyOnItsCauses := by
  intro i s q
  rw [faults_iff, faultOf_eq_some_iff (by simp)]
  cases i with
  | lfsrInit _ _ _ | lfsrSet _ | divInit _ _ | crcInit _ _ =>
    simp only [operandFault, guard_eq_some_iff, isInit, slotOf]
    simp
    grind
  | _ => simp only [operandFault, guard_eq_some_iff]; simp

/-- Settles O21: the tests of the five operations that take a sequence, each behind the ones in front of it; the bound
`LMAX` is not among them at the spec's configuration. -/
theorem malformedInputExactlyOnItsCauses : Obligations.MalformedInputExactlyOnItsCauses := by
  intro i s m
  rw [faults_iff, faultOf_eq_some_iff (by simp)]
  cases i with
  | divDivide _ | divQuot _ | divRem _ | crcEncode _ _ | crcDecode _ _ =>
    simp only [operandFault, guard_eq_some_iff, isInit, slotOf, someItemTooWide]
    simp
    grind
  | _ => simp only [operandFault, guard_eq_some_iff]; simp

/-- Settles O23: an operation is carried out when all its tests pass, and the tests are the ranges of the operands, the
VALID bit and the fit to the slot's configuration. -/
theorem operationsCompleteExactlyWhenOperandsFit : Obligations.OperationsCompleteExactlyWhenOperandsFit := by
  intro i s
  rw [completes_iff, faultOf_eq_none_iff]
  cases i with
  | lfsrSet _ | lfsrGet | lfsrStep _ | lfsrSteps _ => simp [operandFault, Instr.wellFormed, slotOf]
  | _ =>
    simp only [operandFault, guard_eq_none_iff, isInit, slotOf, someItemTooWide, Instr.wellFormed]
    simp
    grind

/-! ## What an operation leaves unchanged (10_state.md R14, R25, R28) -/

/-- An effect works on one slot, and only `LFSR.STEPS` emits. -/
theorem carryOut_frame (cfg : Config) (i : Instr) (k : Block) :
    (slotOf i ≠ .L → (carryOut cfg i k).block.l = k.l) ∧ (slotOf i ≠ .D → (carryOut cfg i k).block.d = k.d) ∧
      (slotOf i ≠ .C → (carryOut cfg i k).block.c = k.c) ∧
      ((∀ count, i ≠ .lfsrSteps count) → (carryOut cfg i k).emitted = []) := by
  cases i <;> simp [carryOut, slotOf]

theorem operate_frame (cfg : Config) (i : Instr) (k : Block) :
    (slotOf i ≠ .L → (operate cfg i k).block.l = k.l) ∧ (slotOf i ≠ .D → (operate cfg i k).block.d = k.d) ∧
      (slotOf i ≠ .C → (operate cfg i k).block.c = k.c) ∧
      ((∀ count, i ≠ .lfsrSteps count) → (operate cfg i k).emitted = []) := by
  rw [operate_eq]
  cases faultOf cfg i k with
  | some f => simp
  | none => exact carryOut_frame cfg i k

/-- Settles O15: an effect works on one slot, and a fault on none. -/
theorem operationsTouchOnlyTheirOwnSlot : Obligations.OperationsTouchOnlyTheirOwnSlot := by
  intro i s t h
  rw [exec_eq_answer_operate, answer_eq, Host.Outcome.next.injEq] at h
  subst h
  obtain ⟨hl, hd, hc, hemitted⟩ := operate_frame switches i s.toBlock
  exact ⟨hl, hd, hc, rfl, ⟨_, rfl⟩, fun hi => by simp [hemitted hi]⟩

/-- The two blocks differ at most in the three shift registers. -/
def Block.SameConfiguration (k k' : Block) : Prop :=
  k'.l = { k.l with r := k'.l.r } ∧ k'.d = { k.d with r := k'.d.r } ∧ k'.c = { k.c with r := k'.c.r }

theorem operate_sameConfiguration (cfg : Config) {i : Instr} (k : Block) (hi : isInit i = false) :
    k.SameConfiguration (operate cfg i k).block := by
  rw [operate_eq]
  cases faultOf cfg i k with
  | some f => exact ⟨rfl, rfl, rfl⟩
  | none =>
    cases i with
    | lfsrInit _ _ _ | divInit _ _ | crcInit _ _ => simp [isInit] at hi
    | _ => exact ⟨rfl, rfl, rfl⟩

theorem operate_lfsrGet_block (cfg : Config) (k : Block) : (operate cfg .lfsrGet k).block = k := by
  rw [operate_eq]
  cases faultOf cfg .lfsrGet k <;> rfl

/-- Settles O16: an effect that is not an `INIT`'s writes a shift register, and that of `LFSR.GET` writes none. -/
theorem configurationIsWrittenOnlyByInit : Obligations.ConfigurationIsWrittenOnlyByInit := by
  constructor
  · intro i s t hi h
    rw [exec_eq_answer_operate, answer_eq, Host.Outcome.next.injEq] at h
    subst h
    exact operate_sameConfiguration switches s.toBlock hi
  · intro s t h
    rw [exec_eq_answer_operate, answer_eq, Host.Outcome.next.injEq] at h
    subst h
    have hb := operate_lfsrGet_block switches s.toBlock
    exact ⟨congrArg Block.l hb, congrArg Block.d hb, congrArg Block.c hb⟩

/-- The VALID bits after an effect: those before it, and that of the slot of an `INIT`. -/
theorem carryOut_slotValid (cfg : Config) (i : Instr) (k : Block) (slot : SlotName) :
    (carryOut cfg i k).block.slotValid slot = (k.slotValid slot || (isInit i && decide (slotOf i = slot))) := by
  cases i <;> cases slot <;> simp [carryOut, isInit, slotOf]

/-- A VALID bit is set after an operation if it was set before it, or else only if the operation is the `INIT` of its
slot. -/
theorem operate_slotValid (cfg : Config) (i : Instr) (k : Block) (slot : SlotName) :
    (k.slotValid slot = true → (operate cfg i k).block.slotValid slot = true) ∧
      (k.slotValid slot = false → (operate cfg i k).block.slotValid slot = true →
        isInit i = true ∧ slotOf i = slot) := by
  rw [operate_eq]
  cases faultOf cfg i k with
  | some f => simp +contextual
  | none =>
    simp only [Option.elim_none, carryOut_slotValid]
    simp +contextual

/-- A fault status in answer to an operation is all that it leaves (60_exceptions.md R118, R126). -/
theorem exec_fault_eq {i : Instr} {s t : State} {f : FaultStatus} (h : exec i s = .next t)
    (hf : t.responses = s.responses ++ [.fault f]) : t = respond (.fault f) s := by
  rw [exec_eq_answer_operate] at h
  have hresponse : (operate switches i s.toBlock).response = .fault f := by
    rw [answer_eq, Host.Outcome.next.injEq] at h
    subst h
    simpa using hf
  rw [operate_eq_raise_of_response hresponse, answer_raise, Host.Outcome.next.injEq] at h
  exact h.symm

end Sys2Proof.Machine

/-! ## The step (30_encoding.md R50, 20_memory.md R42) -/

namespace Sys2Proof.Machine

theorem step_idle {s : State} (h : s.pending = []) : step s = .next s := by
  unfold step
  rw [h]

theorem step_illegal {s : State} {t : Transaction} {rest : List Transaction} {r : Reject} (h : s.pending = t :: rest)
    (hd : decode t = .error r) :
    step s = .next (respond (.fault (.illegalCommand t.word)) { s with pending := rest }) := by
  unfold step
  rw [h]
  simp only [hd]
  exact answer_raise _ { s with pending := rest }

theorem step_legal {s : State} {t : Transaction} {rest : List Transaction} {i : Instr} (h : s.pending = t :: rest)
    (hd : decode t = .ok i) : step s = exec i { s with pending := rest } := by
  unfold step
  rw [h]
  simp only [hd]

/-- The whole of a step: idle, an illegal word, or the operation of the oldest transaction. -/
theorem step_cases {s t : State} (h : step s = .next t) :
    (s.pending = [] ∧ t = s) ∨
    ∃ tx rest, s.pending = tx :: rest ∧
      ((∃ r, decode tx = .error r ∧ t = respond (.fault (.illegalCommand tx.word)) { s with pending := rest }) ∨
        ∃ i, decode tx = .ok i ∧ exec i { s with pending := rest } = .next t) := by
  cases hp : s.pending with
  | nil =>
    rw [step_idle hp, Host.Outcome.next.injEq] at h
    exact .inl ⟨rfl, h.symm⟩
  | cons tx rest =>
    refine .inr ⟨tx, rest, rfl, ?_⟩
    cases hd : decode tx with
    | error r =>
      rw [step_illegal hp hd, Host.Outcome.next.injEq] at h
      exact .inl ⟨r, rfl, h.symm⟩
    | ok i => exact .inr ⟨i, rfl, (step_legal hp hd).symm.trans h⟩

/-- The step at any configuration is the block's step on the oldest transaction. -/
theorem stepWith_cons (cfg : Config) {s : State} {t : Transaction} {rest : List Transaction}
    (h : s.pending = t :: rest) : stepWith cfg s = answer (transact cfg t s.toBlock) { s with pending := rest } := by
  unfold stepWith
  rw [h]

theorem transact_illegal (cfg : Config) {t : Transaction} (k : Block) {r : Reject} (h : decode t = .error r) :
    transact cfg t k = raise (.illegalCommand t.word) k := by
  unfold transact
  rw [h]

theorem transact_legal (cfg : Config) {t : Transaction} (k : Block) {i : Instr} (h : decode t = .ok i) :
    transact cfg t k = operate cfg i k := by
  unfold transact
  rw [h]

/-- At the spec's configuration the step is the block's step on the oldest transaction. -/
theorem stepWith_switches (s : State) : stepWith switches s = step s := by
  cases hp : s.pending with
  | nil => rw [step_idle hp, stepWith, hp]
  | cons t rest =>
    rw [stepWith_cons switches hp]
    cases hd : decode t with
    | error r => rw [step_illegal hp hd, transact_illegal switches _ hd, ← answer_raise]
    | ok i => rw [step_legal hp hd, transact_legal switches _ hd, exec_eq_answer_operate]

/-- A step that takes a transaction, whole: the block's answer to it, and what the host holds. -/
theorem step_cons {s : State} {t : Transaction} {rest : List Transaction} (h : s.pending = t :: rest) :
    step s = answer (transact switches t s.toBlock) { s with pending := rest } := by
  rw [← stepWith_switches, stepWith_cons switches h]

/-- Settles O5: both clauses are the legal case of a step. -/
theorem stepRunsTheDecodedOperation : Obligations.StepRunsTheDecodedOperation := by
  refine ⟨fun s t rest i hp hd => step_legal hp hd, fun s nbits w i hd => ?_⟩
  have hdecode : decode (transactionOfWord nbits w) = .ok i := by
    unfold decodeTableWord at hd
    cases hw : decode (transactionOfWord nbits w) with
    | error r => simp [hw, Except.toOption] at hd
    | ok j => simpa [hw, Except.toOption] using hd
  exact step_legal rfl hdecode

/-- Settles O6: the illegal and the idle case of a step. -/
theorem illegalCommandAnsweredAndIdleHolds : Obligations.IllegalCommandAnsweredAndIdleHolds :=
  ⟨fun _ _ _ _ hp hd => step_illegal hp hd, fun _ hp => step_idle hp⟩

/-- A step of any state goes on; it takes the oldest transaction and returns one response for it. -/
theorem step_next (s : State) : ∃ t, step s = .next t ∧ t.pending = s.pending.tail ∧ (s.pending = [] → t = s) ∧
    (s.pending ≠ [] → ∃ r, t.responses = s.responses ++ [r]) ∧ ∃ out, t.sink = s.sink ++ out := by
  cases hp : s.pending with
  | nil => exact ⟨s, step_idle hp, hp, fun _ => rfl, fun h => absurd rfl h, [], (List.append_nil _).symm⟩
  | cons tx rest => exact ⟨_, step_cons hp, rfl, fun h => absurd h (List.cons_ne_nil _ _), fun _ => ⟨_, rfl⟩, _, rfl⟩

/-- Settles O7: an idle step, or the block's answer to the oldest transaction. -/
theorem everyStepGoesOnWithOneResponse : Obligations.EveryStepGoesOnWithOneResponse := step_next

theorem run_succ (n : Nat) {s u : State} (h : step s = .next u) :
    Host.Core.run core (n + 1) s = Host.Core.run core n u := by
  have hcore : core.step s = .next u := h
  simp only [Host.Core.run, hcore]

/-- As many steps as transactions, by induction on their number: each step takes one and responds once. -/
theorem run_pending (s : State) : ∃ t rs, Host.Core.run core s.pending.length s = .next t ∧ t.pending = [] ∧
    t.responses = s.responses ++ rs ∧ rs.length = s.pending.length := by
  generalize hn : s.pending.length = n
  induction n generalizing s with
  | zero =>
    exact ⟨s, [], rfl, List.eq_nil_of_length_eq_zero hn, (List.append_nil _).symm, rfl⟩
  | succ n ih =>
    obtain ⟨u, hu, hpending, -, hresponse, -⟩ := step_next s
    obtain ⟨r, hr⟩ := hresponse (List.ne_nil_of_length_eq_add_one hn)
    obtain ⟨t, rs, hrun, hdone, hresponses, hlength⟩ :=
      ih u (by rw [hpending, List.length_tail, hn, Nat.add_sub_cancel])
    refine ⟨t, r :: rs, (run_succ n hu).trans hrun, hdone, ?_, congrArg Nat.succ hlength⟩
    rw [hresponses, hr, List.append_assoc]
    rfl

/-- Settles O8: a run of as many steps as there are transactions. -/
theorem everyIssuedOperationEnds : Obligations.EveryIssuedOperationEnds := by
  intro s
  obtain ⟨t, rs, hrun, hdone, hresponses, hlength⟩ := run_pending s
  exact ⟨t, hrun, hdone, ⟨rs, hresponses.symm⟩, by rw [hresponses, List.length_append, hlength]⟩

/-- Settles O9: an operation is a function of the block's registers, answered beside whatever the host holds. -/
theorem operationsReadOnlyTheirOperandsAndRegisters : Obligations.OperationsReadOnlyTheirOperandsAndRegisters :=
  fun i s =>
    let e := operate switches i s.toBlock
    ⟨e.block.l, e.block.d, e.block.c, e.response, e.emitted, fun _ _ _ => exec_eq_answer_operate i _⟩

/-- Settles O10: the test of VALID fails for every slot at power-on. -/
theorem powerOnLeavesEverySlotUnconfigured : Obligations.PowerOnLeavesEverySlotUnconfigured := by
  refine ⟨rfl, rfl, rfl, fun i hi => (faults_iff i _ _).2 ((faultOf_eq_notConfigured_iff _ i _ _).2 ⟨hi, rfl, ?_⟩)⟩
  cases slotOf i <;> rfl

/-- Settles O12: no slot is configured at power-on. -/
theorem registerWidthsHoldAtPowerOn : Obligations.RegisterWidthsHoldAtPowerOn := by
  refine ⟨?_, ?_, ?_⟩ <;> intro h <;> exact absurd h Bool.false_ne_true

/-- Settles O14: the VALID bits an operation leaves, in each case of a step. -/
theorem onlyInitSetsValidAndNothingClearsIt : Obligations.OnlyInitSetsValidAndNothingClearsIt := by
  intro s t slot h
  rcases step_cases h with ⟨-, rfl⟩ | ⟨tx, rest, hp, ⟨r, hd, rfl⟩ | ⟨i, hd, hexec⟩⟩
  · exact ⟨id, fun h0 h1 => by simp [h0] at h1⟩
  · exact ⟨id, fun h0 h1 => by simp [h0] at h1⟩
  · rw [exec_eq_answer_operate, answer_eq, Host.Outcome.next.injEq] at hexec
    subst hexec
    obtain ⟨hkept, hset⟩ := operate_slotValid switches i s.toBlock slot
    exact ⟨hkept, fun h0 h1 => ⟨tx, rest, i, hp, hd, hset h0 h1⟩⟩

/-- Settles O17: a fault status determines the effect, in each case of a step. -/
theorem faultsChangeNothing : Obligations.FaultsChangeNothing := by
  refine ⟨fun i s t f => exec_fault_eq, fun s t f h hf => ?_⟩
  rcases step_cases h with ⟨-, rfl⟩ | ⟨tx, rest, hp, ⟨r, hd, rfl⟩ | ⟨i, hd, hexec⟩⟩
  · simp at hf
  · have hstatus : FaultStatus.illegalCommand tx.word = f := by simpa using hf
    rw [hp, ← hstatus, List.tail_cons]
  · rw [hp, List.tail_cons]
    exact exec_fault_eq hexec hf

/-- A width above `NMAX` is refused by the three `INIT` (92_eei_decisions.md D23). -/
theorem init_refuses_over_nmax {cfg : Config} {m : Nat} (hmax : cfg.nmax = some m) (s : State) :
    (∀ g n (seed : Nat), m < n → FaultsAt cfg (.lfsrInit g n seed) s (.badParameter .n)) ∧
    (∀ g p, m < p → FaultsAt cfg (.divInit g p) s (.badParameter .p)) ∧
    (∀ g nitems, 2 ^ (m + 1) ≤ g → FaultsAt cfg (.crcInit g nitems) s (.badParameter .g)) := by
  have hover : ∀ width, m < width → overNmax cfg width = true := fun width h => by simp [overNmax, hmax, h]
  refine ⟨fun g n seed h => ?_, fun g p h => ?_, fun g nitems h => ?_⟩ <;>
    rw [faultsAt_iff, faultOf_of_isInit cfg _ rfl]
  · have hn : n ≠ 0 := by omega
    simp [operandFault, hover n h, hn]
  · simp [operandFault, hover p h]
  · have hlen : m < bitlen g - 1 := by
      have := (lt_two_pow_iff_bitlen_le g (m + 1)).not.1 (Nat.not_lt.2 h)
      omega
    simp [operandFault, hover _ hlen]

/-- Settles O24: each bound is one test of the operand, behind tests that the hypotheses pass. -/
theorem boundedImplementationsRefuseBeyondTheirBounds : Obligations.BoundedImplementationsRefuseBeyondTheirBounds := by
  refine ⟨fun i s => (exec_eq_answer_operate i s).symm, fun cfg m s =>
    ⟨fun hmax => init_refuses_over_nmax hmax s, fun hmax => ?_⟩⟩
  have hover : ∀ length, m < length → overLmax cfg length = true := fun length h => by simp [overLmax, hmax, h]
  have hfaults : ∀ i, s.slotValid (slotOf i) = true →
      operandFault cfg i s.toBlock = some (.malformedInput .overLength) → FaultsAt cfg i s (.malformedInput .overLength) := fun i hv hf =>
    (faultsAt_iff cfg i s _).2 ((faultOf_eq_some_iff (by simp)).2 ⟨.inr hv, hf⟩)
  refine ⟨fun count hv h => hfaults _ hv ?_, fun d i hv h hi => hfaults _ ?_ ?_,
    fun payload w hv hw hl hitems h => hfaults _ hv ?_, fun received w hv hw hl h => hfaults _ hv ?_⟩
  · simp [operandFault, hover _ h]
  · rcases hi with rfl | rfl | rfl <;> exact hv
  · have hd : d ≠ [] := by rintro rfl; simp at h
    rcases hi with rfl | rfl | rfl <;> simp [operandFault, hd, hover _ h]
  · have hfit : someItemTooWide payload w = false := by simpa [someItemTooWide] using hitems
    simp [operandFault, Nat.ne_of_gt hw, hl, hfit, hover _ h]
  · simp [operandFault, Nat.ne_of_gt hw, hl, hover _ (hl ▸ h)]

/-- Settles O60: the step is the block's on the oldest transaction; the other clauses are the fault and the frame of
`operate`. -/
theorem blockStepTakesItsInputsAsParameters : Obligations.BlockStepTakesItsInputsAsParameters := by
  refine ⟨fun cfg s t rest hp => stepWith_cons cfg hp, stepWith_switches, fun cfg t k => ⟨fun f hf => ?_, ?_, ?_⟩⟩
  · cases hd : decode t with
    | error r => simp [transact_illegal cfg k hd]
    | ok i =>
      rw [transact_legal cfg k hd] at hf ⊢
      simp [operate_eq_raise_of_response hf]
  · intro r hd
    rw [transact_illegal cfg k hd, raise_response]
  · intro i hd
    rw [transact_legal cfg k hd, operate_response_fault_iff, faultOf_eq_notConfigured_iff]
    obtain ⟨hl, hd, hc, hemitted⟩ := operate_frame cfg i k
    exact ⟨rfl, by simp, hl, hd, hc, hemitted⟩

end Sys2Proof.Machine

/-! ## The registers of an unconfigured slot cannot be observed (10_state.md R30) -/

namespace Sys2Proof.Machine

/-- Two blocks that differ at most in the registers of slots that neither has configured. -/
structure Block.Alike (k k' : Block) : Prop where
  l : k.l.valid = k'.l.valid ∧ (k.l.valid = true → k.l = k'.l)
  d : k.d.valid = k'.d.valid ∧ (k.d.valid = true → k.d = k'.d)
  c : k.c.valid = k'.c.valid ∧ (k.c.valid = true → k.c = k'.c)

namespace Block.Alike

variable {k k' : Block}

theorem slotValid (h : k.Alike k') (slot : SlotName) : k.slotValid slot = k'.slotValid slot := by
  cases slot
  exacts [h.l.1, h.d.1, h.c.1]

/-- Writing one value to slot `L` of both. -/
theorem setL (h : k.Alike k') (x : LfsrSlot) : (k.setL x).Alike (k'.setL x) := ⟨⟨rfl, fun _ => rfl⟩, h.d, h.c⟩
theorem setD (h : k.Alike k') (x : DivSlot) : (k.setD x).Alike (k'.setD x) := ⟨h.l, ⟨rfl, fun _ => rfl⟩, h.c⟩
theorem setC (h : k.Alike k') (x : CrcSlot) : (k.setC x).Alike (k'.setC x) := ⟨h.l, h.d, ⟨rfl, fun _ => rfl⟩⟩

theorem operandFault_eq (h : k.Alike k') (cfg : Config) {i : Instr}
    (hi : isInit i = true ∨ k.slotValid (slotOf i) = true) : operandFault cfg i k = operandFault cfg i k' := by
  cases i with
  | lfsrSet v =>
    have hl := h.l.2 (hi.resolve_left Bool.false_ne_true)
    simp only [operandFault, hl]
  | crcEncode payload w =>
    have hc := h.c.2 (hi.resolve_left Bool.false_ne_true)
    simp only [operandFault, hc]
  | crcDecode received w =>
    have hc := h.c.2 (hi.resolve_left Bool.false_ne_true)
    simp only [operandFault, hc]
  | _ => rfl

/-- Both take the same fault or none: the VALID bits agree, and the tests behind them read a configured slot. -/
theorem faultOf_eq (h : k.Alike k') (cfg : Config) (i : Instr) : faultOf cfg i k = faultOf cfg i k' := by
  unfold faultOf
  rw [← h.slotValid]
  split
  · rfl
  · rename_i hi
    rw [not_and_or, Bool.not_eq_false, Bool.not_eq_false] at hi
    exact h.operandFault_eq cfg hi

/-- The effect on a configured slot, or of an `INIT`, is the same for the host and leaves alike what was alike. -/
theorem carryOut (h : k.Alike k') (cfg : Config) {i : Instr} (hi : isInit i = true ∨ k.slotValid (slotOf i) = true) :
    (carryOut cfg i k).response = (carryOut cfg i k').response ∧
      (carryOut cfg i k).emitted = (carryOut cfg i k').emitted ∧
      (carryOut cfg i k).block.Alike (carryOut cfg i k').block := by
  obtain ⟨l, d, c⟩ := k
  obtain ⟨l', d', c'⟩ := k'
  cases i with
  | lfsrInit g n seed => exact ⟨rfl, rfl, h.setL _⟩
  | divInit g p => exact ⟨rfl, rfl, h.setD _⟩
  | crcInit g nitems => exact ⟨rfl, rfl, h.setC _⟩
  | lfsrGet =>
    obtain rfl : l = l' := h.l.2 (hi.resolve_left Bool.false_ne_true)
    exact ⟨rfl, rfl, h⟩
  | lfsrSet _ | lfsrStep _ | lfsrSteps _ =>
    obtain rfl : l = l' := h.l.2 (hi.resolve_left Bool.false_ne_true)
    exact ⟨rfl, rfl, h.setL _⟩
  | divDivide _ | divQuot _ | divRem _ =>
    obtain rfl : d = d' := h.d.2 (hi.resolve_left Bool.false_ne_true)
    exact ⟨rfl, rfl, h.setD _⟩
  | crcEncode _ _ | crcDecode _ _ =>
    obtain rfl : c = c' := h.c.2 (hi.resolve_left Bool.false_ne_true)
    exact ⟨rfl, rfl, h.setC _⟩

theorem operate (h : k.Alike k') (cfg : Config) (i : Instr) :
    (operate cfg i k).response = (operate cfg i k').response ∧
      (operate cfg i k).emitted = (operate cfg i k').emitted ∧
      (operate cfg i k).block.Alike (operate cfg i k').block := by
  rw [operate_eq, operate_eq, ← h.faultOf_eq]
  cases hf : faultOf cfg i k with
  | some f => exact ⟨rfl, rfl, h⟩
  | none => exact h.carryOut cfg ((faultOf_eq_none_iff cfg i k).1 hf).1

theorem transact (h : k.Alike k') (cfg : Config) (t : Transaction) :
    (transact cfg t k).response = (transact cfg t k').response ∧
      (transact cfg t k).emitted = (transact cfg t k').emitted ∧
      (transact cfg t k).block.Alike (transact cfg t k').block := by
  cases hd : decode t with
  | error r =>
    rw [transact_illegal cfg k hd, transact_illegal cfg k' hd]
    exact ⟨rfl, rfl, h⟩
  | ok i =>
    rw [transact_legal cfg k hd, transact_legal cfg k' hd]
    exact h.operate cfg i

end Block.Alike

/-- Settles O11: both states take the oldest transaction or none; then the block's answers to it agree. -/
theorem unconfiguredRegistersCannotBeObserved : Obligations.UnconfiguredRegistersCannotBeObserved := by
  intro s s' t hs h
  have hblock : s.toBlock.Alike s'.toBlock := ⟨hs.l, hs.d, hs.c⟩
  cases hp : s.pending with
  | nil =>
    rw [step_idle hp, Host.Outcome.next.injEq] at h
    exact ⟨s', step_idle (hs.pending ▸ hp), h ▸ hs⟩
  | cons tx rest =>
    rw [step_cons hp, answer_eq, Host.Outcome.next.injEq] at h
    subst h
    obtain ⟨hresponse, hemitted, ⟨hl, hd, hc⟩⟩ := hblock.transact switches tx
    refine ⟨_, step_cons (hs.pending ▸ hp), ⟨hl, hd, hc, rfl, ?_, ?_⟩⟩
    · simp [hs.responses, hresponse]
    · simp [hs.sink, hemitted]

/-! ## Every step keeps the register widths (10_state.md R15 to R18, R20) -/

/-- The widths of the three slots (10_state.md R15 to R20). -/
def Block.Inv (k : Block) : Prop := k.l.Inv ∧ k.d.Inv ∧ k.c.Inv

theorem lfsrIterate_lt {s : Nat} (g : Nat) {n : Nat} (t : Nat) (hs : s < 2 ^ n) : lfsrIterate g n t s < 2 ^ n := by
  induction t generalizing s with
  | zero => exact hs
  | succ t ih => exact ih (lfsrStep_state_lt s g n)

namespace Block.Inv

variable {k : Block}

theorem setL {x : LfsrSlot} (h : k.Inv) (hx : x.Inv) : (k.setL x).Inv := ⟨hx, h.2⟩
theorem setD {x : DivSlot} (h : k.Inv) (hx : x.Inv) : (k.setD x).Inv := ⟨h.1, hx, h.2.2⟩
theorem setC {x : CrcSlot} (h : k.Inv) (hx : x.Inv) : (k.setC x).Inv := ⟨h.1, h.2.1, hx⟩

/-- A value that fits the register may be written to it. -/
theorem setLR {v : Nat} (h : k.Inv) (hv : v < 2 ^ k.l.n) : (k.setLR v).Inv :=
  h.setL fun hvalid => ⟨(h.1 hvalid).1, (h.1 hvalid).2.1, hv⟩
theorem setDR {v : Nat} (h : k.Inv) (hv : v < 2 ^ k.d.p) : (k.setDR v).Inv :=
  h.setD fun hvalid => ⟨(h.2.1 hvalid).1, (h.2.1 hvalid).2.1, hv⟩
theorem setCR {v : Nat} (h : k.Inv) (hv : v < 2 ^ k.c.degree) : (k.setCR v).Inv :=
  h.setC fun hvalid => ⟨(h.2.2 hvalid).1, (h.2.2 hvalid).2.1, hv⟩

/-- An effect keeps the widths: an `INIT` writes operands that its tests bound, and every other operation writes a shift
register of a configured slot. -/
theorem carryOut {i : Instr} (h : k.Inv) (hf : faultOf switches i k = none) : (carryOut switches i k).block.Inv := by
  obtain ⟨hvalid, htests⟩ := (faultOf_eq_none_iff switches i k).1 hf
  cases i with
  | lfsrInit g n seed =>
    simp only [operandFault, guard_eq_none_iff] at htests
    obtain ⟨-, hn, -, hseed, -⟩ := htests
    exact h.setL fun _ => ⟨Nat.one_le_iff_ne_zero.2 hn, Nat.mod_lt _ (by positivity), by simpa using hseed⟩
  | divInit g p =>
    simp only [operandFault, guard_eq_none_iff] at htests
    exact h.setD fun _ => ⟨Nat.one_le_iff_ne_zero.2 htests.1, Nat.mod_lt _ (by positivity), by positivity⟩
  | crcInit g nitems =>
    simp only [operandFault, guard_eq_none_iff] at htests
    have hlen : 2 ≤ bitlen g := by
      have := (lt_two_pow_iff_bitlen_le g 1).not.1 (by omega)
      omega
    exact h.setC fun _ => ⟨rfl, hlen, by positivity⟩
  | lfsrSet v =>
    simp only [operandFault, guard_eq_none_iff] at htests
    exact h.setLR (by simpa using htests)
  | lfsrGet => exact h
  | lfsrStep stateFlag => exact h.setLR (lfsrStep_state_lt _ _ _)
  | lfsrSteps count =>
    have hl : k.l.valid = true := hvalid.resolve_left Bool.false_ne_true
    refine h.setLR ?_
    rw [lfsrRun_state]
    exact lfsrIterate_lt _ count (h.1 hl).2.2
  | divDivide d | divQuot d | divRem d =>
    have hd : k.d.valid = true := hvalid.resolve_left Bool.false_ne_true
    exact h.setDR (divLoop_register_lt switches _ d (h.2.1 hd).1 (by positivity))
  | crcEncode payload w =>
    have hc : k.c.valid = true := hvalid.resolve_left Bool.false_ne_true
    exact h.setCR (encodeRemainder_lt switches payload w hc h.2.2)
  | crcDecode received w =>
    have hc : k.c.valid = true := hvalid.resolve_left Bool.false_ne_true
    exact h.setCR (crcDivideRemainder_lt switches received hc h.2.2)

theorem operate (h : k.Inv) (i : Instr) : (operate switches i k).block.Inv := by
  rw [operate_eq]
  cases hf : faultOf switches i k with
  | some f => exact h
  | none => exact h.carryOut hf

end Block.Inv

/-- Settles O13: the widths hold of a block alone, and every operation's effect keeps them. -/
theorem everyStepKeepsRegisterWidths : Obligations.EveryStepKeepsRegisterWidths := by
  intro s t hs h
  rcases step_cases h with ⟨-, rfl⟩ | ⟨tx, rest, -, ⟨r, -, rfl⟩ | ⟨i, -, hexec⟩⟩
  · exact hs
  · exact hs
  · rw [exec_eq_answer_operate, answer_eq, Host.Outcome.next.injEq] at hexec
    subst hexec
    exact Block.Inv.operate (k := s.toBlock) hs i

end Sys2Proof.Machine

/-! ## Conversions and doubling (40_bit_conversion.md R68, R70) -/

namespace Sys2Proof.Machine

@[simp] theorem testBit_two_mul_succ (x k : Nat) : (2 * x).testBit (k + 1) = x.testBit k := by
  rw [Nat.testBit_succ, Nat.mul_div_cancel_left _ Nat.two_pos]

theorem fromBits_concat (A : Bits) (c : Bool) : fromBits (A ++ [c]) = 2 * fromBits A + c.toNat := by
  rw [fromBits_append]
  simp [Nat.mul_comm]

/-- Doubling is a shift: position 0 is lost, and a 0 comes in behind. -/
theorem toBits_two_mul (v N : Nat) : toBits (2 * v) (N + 1) = (toBits v (N + 1)).tail ++ [false] := by
  refine eq_of_bitAt_eq (by simp) fun i hi => ?_
  rw [toBits_length] at hi
  rcases Nat.lt_succ_iff_lt_or_eq.1 hi with hi | rfl
  · obtain ⟨j, hj⟩ : ∃ j, N - i = j + 1 := ⟨N - i - 1, by omega⟩
    have hweight : N - (i + 1) = j := by omega
    have hfront : i < (toBits v (N + 1)).tail.length := by simpa using hi
    have htail : bitAt (toBits v (N + 1)).tail i = bitAt (toBits v (N + 1)) (i + 1) := by
      simp [bitAt, List.getD_eq_getElem?_getD]
    rw [bitAt_append_left _ hfront, htail, bitAt_toBits, bitAt_toBits]
    simp [hj, hweight, hi, Nat.lt_succ_of_lt hi]
  · have hlast : bitAt ((toBits v (i + 1)).tail ++ [false]) i = false := by
      have := bitAt_append_length_add (toBits v (i + 1)).tail [false] 0
      rwa [List.length_tail, toBits_length] at this
    rw [hlast, bitAt_toBits]
    simp

/-- A nonzero value in as many bits as it has begins with a 1. -/
theorem head?_toBits_bitlen {v : Nat} (hv : 1 ≤ v) : (toBits v (bitlen v)).head? = some true := by
  have hlen : bitlen v = v.log2 + 1 := by simp [bitlen, Nat.ne_of_gt hv]
  rw [hlen, toBits, List.range_succ_eq_map]
  simp [Nat.testBit_log2 (Nat.ne_of_gt hv)]

theorem toBitsMinimal_of_pos {v : Nat} (hv : 1 ≤ v) : toBitsMinimal v = toBits v (bitlen v) := by
  have hlen : 1 ≤ bitlen v := by simp [bitlen, Nat.ne_of_gt hv]
  rw [toBitsMinimal, Nat.max_eq_right hlen]

/-- Settles O26: a sequence is its length and the number it reads as, and doubling moves every bit up one place. -/
theorem bitConversionLaws : Obligations.BitConversionLaws := by
  refine ⟨fromBits_toBits, toBits_fromBits, toBits_two_mul, by decide, fun v hv => ?_⟩
  rw [toBitsMinimal_of_pos hv, fromBits_toBits, Nat.mod_eq_of_lt ((lt_two_pow_iff_bitlen_le v _).2 le_rfl)]
  exact ⟨head?_toBits_bitlen hv, rfl⟩

/-! ## Division with remainder over GF(2) (40_bit_conversion.md R72 (e)) -/

theorem testBit_two_mul_add (x : Nat) (c : Bool) (k : Nat) :
    (2 * x + c.toNat).testBit k = if k = 0 then c else x.testBit (k - 1) := by
  cases k with
  | zero => cases c <;> simp
  | succ k =>
    have hhalf : (2 * x + c.toNat) / 2 = x := by cases c <;> simp; omega
    simp [Nat.testBit_succ, hhalf]

theorem two_mul_xor (x y : Nat) : 2 * (x ^^^ y) = 2 * x ^^^ 2 * y := by
  refine Nat.eq_of_testBit_eq fun k => ?_
  cases k <;> simp

/-- The lowest bit of a number in front of which another is XORed stays what it is. -/
theorem two_mul_xor_add (x y : Nat) (c : Bool) : 2 * (x ^^^ y) + c.toNat = 2 * x ^^^ (2 * y + c.toNat) := by
  refine Nat.eq_of_testBit_eq fun k => ?_
  simp only [testBit_two_mul_add, Nat.testBit_xor]
  cases k <;> simp

theorem clMulBelow_two_mul (N a b : Nat) : clMulBelow (N + 1) (2 * a) b = 2 * clMulBelow N a b := by
  induction N with
  | zero => simp [clMulBelow_succ]
  | succ N ih =>
    rw [clMulBelow_succ, ih, clMulBelow_succ, two_mul_xor, testBit_two_mul_succ]
    split <;> simp [Nat.shiftLeft_succ]

/-- Doubling a factor doubles the product. -/
theorem clMul_two_mul (a b : Nat) : clMul (2 * a) b = 2 * clMul a b := by
  have hlen : bitlen (2 * a) ≤ bitlen a + 1 := by
    have := (lt_two_pow_iff_bitlen_le a (bitlen a)).2 le_rfl
    rw [← lt_two_pow_iff_bitlen_le, pow_succ]
    omega
  rw [← clMulBelow_of_bitlen_le b hlen, clMulBelow_two_mul, clMul_eq_below]

@[simp] theorem clMul_one (b : Nat) : clMul 1 b = b := clMul_two_pow 0 b

/-- One more coefficient of the first factor, at the low end. -/
theorem clMul_two_mul_add (a b : Nat) (t : Bool) :
    clMul (2 * a + t.toNat) b = 2 * clMul a b ^^^ (if t then b else 0) := by
  have hxor := two_mul_xor_add a 0 t
  rw [Nat.xor_zero, Nat.mul_zero, Nat.zero_add] at hxor
  rw [hxor, clMul_xor, clMul_two_mul]
  cases t <;> simp

/-- One pass of schoolbook division that takes the dividend's next coefficient `c` in: multiply the remainder so far by
`x`, add `c`, and subtract the divisor if the degree has come to `p`. -/
def remainderStep (b p r : Nat) (c : Bool) : Nat := (2 * r + c.toNat) ^^^ (if r.testBit (p - 1) then b else 0)

section
variable {b p : Nat} (hp : b.testBit p = true) (hb : b < 2 ^ (p + 1))
include hp hb

theorem polyMod_lt (a : Nat) : polyMod a b p < 2 ^ p := (longDiv_spec hp hb a).2

/-- A dividend of degree below the divisor's is its own remainder. -/
theorem longDiv_of_lt {a : Nat} (ha : a < 2 ^ p) : polyQuot a b p = 0 ∧ polyMod a b p = a :=
  longDiv_unique hp hb (by simp) ha

/-- The remainder is linear in the dividend. -/
theorem polyMod_xor (a c : Nat) : polyMod (a ^^^ c) b p = polyMod a b p ^^^ polyMod c b p := by
  obtain ⟨ha, har⟩ := longDiv_spec hp hb a
  obtain ⟨hc, hcr⟩ := longDiv_spec hp hb c
  refine (longDiv_unique hp hb (q := polyQuot a b p ^^^ polyQuot c b p) ?_ (Nat.xor_lt_two_pow har hcr)).2
  rw [clMul_xor]
  calc _ = (clMul (polyQuot a b p) b ^^^ polyMod a b p) ^^^ (clMul (polyQuot c b p) b ^^^ polyMod c b p) := by ac_rfl
    _ = a ^^^ c := by rw [ha, hc]

theorem remainderStep_lt (h1 : 1 ≤ p) {r : Nat} (c : Bool) (hr : r < 2 ^ p) : remainderStep b p r c < 2 ^ p := by
  refine Nat.lt_pow_two_of_testBit _ fun i hi => ?_
  obtain ⟨j, rfl⟩ : ∃ j, i = j + 1 := ⟨i - 1, by omega⟩
  rw [remainderStep, Nat.testBit_xor, testBit_two_mul_add, if_neg (Nat.succ_ne_zero j), Nat.add_sub_cancel]
  rcases Nat.eq_or_lt_of_le hi with rfl | hi
  · rw [Nat.add_sub_cancel]
    cases r.testBit j <;> simp [hp]
  · have hrj : r.testBit j = false := Nat.testBit_lt_two_pow (hr.trans_le (Nat.pow_le_pow_right (by omega) (by omega)))
    have hbj : b.testBit (j + 1) = false := Nat.testBit_lt_two_pow (hb.trans_le (Nat.pow_le_pow_right (by omega) hi))
    simp [hrj, hbj, apply_ite (fun v => Nat.testBit v (j + 1))]

/-- A dividend with one more coefficient: one more pass, and one more coefficient of the quotient. -/
theorem longDiv_two_mul_add (h1 : 1 ≤ p) (a : Nat) (c : Bool) :
    polyQuot (2 * a + c.toNat) b p = 2 * polyQuot a b p + ((polyMod a b p).testBit (p - 1)).toNat ∧
      polyMod (2 * a + c.toNat) b p = remainderStep b p (polyMod a b p) c := by
  obtain ⟨ha, har⟩ := longDiv_spec hp hb a
  refine longDiv_unique hp hb ?_ (remainderStep_lt hp hb h1 c har)
  rw [clMul_two_mul_add, remainderStep, xor_cancel_right, ← two_mul_xor_add, ha]

/-- A pass is the division of what it is given. -/
theorem remainderStep_eq_polyMod (h1 : 1 ≤ p) {r : Nat} (c : Bool) (hr : r < 2 ^ p) :
    remainderStep b p r c = polyMod (2 * r + c.toNat) b p := by
  rw [(longDiv_two_mul_add hp hb h1 r c).2, (longDiv_of_lt hp hb hr).2]

end

end Sys2Proof.Machine

/-! ## The LFSR step as arithmetic on polynomials (41_lfsr.md R80 to R83) -/

namespace Sys2Proof.Machine

theorem testBit_taps (g n k : Nat) : (taps g n).testBit k = (decide (k = 0) || (decide (k < n) && g.testBit k)) := by
  rw [taps, Nat.testBit_or, Nat.testBit_mod_two_pow, Bool.or_comm]
  congr 1
  cases k <;> simp [Nat.testBit_succ]

/-- The new state in closed form (41_lfsr.md R80). -/
theorem lfsrStep_state_eq (s g : Nat) {n : Nat} (hn : 1 ≤ n) :
    (lfsrStep s g n).2 = ((2 * s) % 2 ^ n) ^^^ (if s.testBit (n - 1) then taps g n else 0) := by
  refine Nat.eq_of_testBit_eq fun k => ?_
  rw [testBit_lfsrStep, Nat.testBit_xor, Nat.testBit_mod_two_pow, apply_ite (fun v => Nat.testBit v k), testBit_taps]
  cases k with
  | zero => simp [Nat.lt_of_succ_le hn]
  | succ k => by_cases hk : k + 1 < n <;> simp [hk, Bool.and_comm]

theorem lfsrStep_eq_closedForm (s g : Nat) {n : Nat} (hn : 1 ≤ n) :
    let ns := ((2 * s) % 2 ^ n) ^^^ (if s.testBit (n - 1) then taps g n else 0)
    lfsrStep s g n = (ns.testBit (n - 1), ns) := by
  have hstate := lfsrStep_state_eq s g hn
  exact Prod.ext ((lfsrStep_out s g n hn).trans (by rw [hstate])) hstate

/-- Settles O30: both sides have the same bit at every weight. -/
theorem lfsrStepIsItsClosedForm : Obligations.LfsrStepIsItsClosedForm := by
  intro s g n hn hs
  have hstate := lfsrStep_state_eq s g hn
  refine ⟨lfsrStep_eq_closedForm s g hn, hstate ▸ lfsrStep_state_lt s g n, ?_, fun k h1 hk => ?_⟩ <;>
    rw [← hstate, testBit_lfsrStep]
  · simp [Nat.lt_of_succ_le hn]
  · have hkn : k < n := by omega
    have hk0 : k ≠ 0 := by omega
    simp [hkn, hk0]

theorem testBit_effectivePoly (g : Nat) {n : Nat} (hn : 1 ≤ n) (k : Nat) :
    (effectivePoly g n).testBit k = (decide (k = 0) || decide (k = n) || (decide (k < n) && g.testBit k)) := by
  rw [effectivePoly_eq_xor g hn, Nat.testBit_xor, Nat.testBit_two_pow, testBit_taps]
  rcases Nat.lt_trichotomy k n with h | rfl | h
  · simp [h, h.ne, h.ne']
  · simp [Nat.ne_of_gt hn]
  · have hk : k ≠ 0 := by omega
    simp [h.ne, h.ne', h.not_gt, hk]

/-- The bits of weight `2^n` and above of a value below `2^n`. -/
theorem testBit_of_lt_of_le {s n k : Nat} (hs : s < 2 ^ n) (hk : n ≤ k) : s.testBit k = false :=
  Nat.testBit_lt_two_pow (hs.trans_le (Nat.pow_le_pow_right Nat.two_pos hk))

/-- A step is one pass of the division by the effective polynomial that takes a 0 in (41_lfsr.md R81): at weight `2^n`
the bit shifted out and the polynomial's leading one cancel. -/
theorem lfsrStep_state_eq_remainderStep {s n : Nat} (g : Nat) (hn : 1 ≤ n) (hs : s < 2 ^ n) :
    (lfsrStep s g n).2 = remainderStep (effectivePoly g n) n s false := by
  refine Nat.eq_of_testBit_eq fun k => ?_
  rw [testBit_lfsrStep, remainderStep, Nat.testBit_xor, testBit_two_mul_add, apply_ite (fun v => Nat.testBit v k),
    testBit_effectivePoly g hn]
  rcases Nat.lt_trichotomy k n with h | rfl | h
  · by_cases h0 : k = 0 <;> cases s.testBit (n - 1) <;> simp [h, h.ne, h0, Nat.lt_of_succ_le hn]
  · cases s.testBit (k - 1) <;> simp [Nat.ne_of_gt hn]
  · have hk : k ≠ 0 := by omega
    simp [h.ne', h.not_gt, hk, testBit_of_lt_of_le hs (show n ≤ k - 1 by omega)]

theorem lfsrStep_eq_polyMod {s n : Nat} (g : Nat) (hn : 1 ≤ n) (hs : s < 2 ^ n) :
    (lfsrStep s g n).2 = polyMod (2 * s) (effectivePoly g n) n := by
  obtain ⟨hmonic, hdegree⟩ := effectivePoly_monic g hn
  rw [lfsrStep_state_eq_remainderStep g hn hs, remainderStep_eq_polyMod hmonic hdegree hn false hs]
  rfl

theorem lfsrIterate_succ (g n t s : Nat) : lfsrIterate g n (t + 1) s = (lfsrStep (lfsrIterate g n t s) g n).2 := by
  induction t generalizing s with
  | zero => rfl
  | succ t ih => exact ih _

/-- `t` steps multiply by `x^t`: one more factor `x` for each. -/
theorem lfsrIterate_eq_polyMod {s n : Nat} (g t : Nat) (hn : 1 ≤ n) (hs : s < 2 ^ n) :
    lfsrIterate g n t s = polyMod (s * 2 ^ t) (effectivePoly g n) n := by
  obtain ⟨hmonic, hdegree⟩ := effectivePoly_monic g hn
  induction t with
  | zero => rw [pow_zero, Nat.mul_one, (longDiv_of_lt hmonic hdegree hs).2]; rfl
  | succ t ih =>
    have hpass := (longDiv_two_mul_add hmonic hdegree hn (s * 2 ^ t) false).2
    rw [lfsrIterate_succ, lfsrStep_state_eq_remainderStep g hn (lfsrIterate_lt g t hs), ih, ← hpass]
    congr 1
    simp [pow_succ]
    ring

theorem effectivePoly_of_monic {g n : Nat} (hn : 1 ≤ n) (hlow : 2 ^ n ≤ g) (hhigh : g < 2 ^ (n + 1))
    (hodd : g % 2 = 1) : effectivePoly g n = g := by
  refine Nat.eq_of_testBit_eq fun k => ?_
  rw [testBit_effectivePoly g hn]
  rcases Nat.lt_trichotomy k n with h | rfl | h
  · by_cases h0 : k = 0 <;> simp [h, h.ne, h0, hodd]
  · have htop : g.testBit k = true := by
      rw [Nat.testBit_eq_decide_div_mod_eq, Nat.div_eq_of_lt_le (k := 1)] <;> simp <;> omega
    simp [htop]
  · have hk : k ≠ 0 := by omega
    simp [h.ne', h.not_gt, hk, testBit_of_lt_of_le hhigh h]

/-- Settles O34: a step is one pass of the long division, and a pass more multiplies the dividend by `x`. -/
theorem lfsrStepsMultiplyByXModuloThePolynomial : Obligations.LfsrStepsMultiplyByXModuloThePolynomial :=
  ⟨fun _ g _ hn hs => lfsrStep_eq_polyMod g hn hs, fun _ g _ t hn hs => lfsrIterate_eq_polyMod g t hn hs,
    fun _ _ hn hlow hhigh hodd => effectivePoly_of_monic hn hlow hhigh hodd⟩

/-- No bit of the new state reads a coefficient other than the middle ones, and the output is a bit of the new state. -/
theorem lfsrStep_congr {g g' n : Nat} (s : Nat) (hn : 1 ≤ n)
    (h : ∀ k, 1 ≤ k → k < n → g.testBit k = g'.testBit k) : lfsrStep s g n = lfsrStep s g' n := by
  have hstate : (lfsrStep s g n).2 = (lfsrStep s g' n).2 := by
    refine Nat.eq_of_testBit_eq fun k => ?_
    rw [testBit_lfsrStep, testBit_lfsrStep]
    by_cases h0 : k = 0
    · simp [h0]
    · by_cases hk : k < n
      · rw [h k (Nat.one_le_iff_ne_zero.2 h0) hk]
      · simp [hk]
  exact Prod.ext (by rw [lfsrStep_out s g n hn, lfsrStep_out s g' n hn, hstate]) hstate

/-- Settles O35: the step is the same, bit by bit. -/
theorem onlyMiddleCoefficientsMatter : Obligations.OnlyMiddleCoefficientsMatter :=
  fun s _ _ _ hn h => lfsrStep_congr s hn h

/-! ### The step is invertible (41_lfsr.md R83) -/

/-- The inverse of the step: the feedback bit is bit 0 of the new state. -/
theorem lfsrStep_inverse {s n : Nat} (g : Nat) (hn : 1 ≤ n) (hs : s < 2 ^ n) :
    let ns := (lfsrStep s g n).2
    s = ((ns ^^^ (if ns.testBit 0 then taps g n else 0)) >>> 1) ||| (if ns.testBit 0 then 1 <<< (n - 1) else 0) := by
  have hfb : (lfsrStep s g n).2.testBit 0 = s.testBit (n - 1) := by
    rw [testBit_lfsrStep]
    simp [Nat.lt_of_succ_le hn]
  simp only [hfb]
  rw [lfsrStep_state_eq s g hn, Nat.xor_assoc, Nat.xor_self, Nat.xor_zero]
  refine Nat.eq_of_testBit_eq fun k => ?_
  rw [Nat.testBit_or, Nat.testBit_shiftRight, Nat.testBit_mod_two_pow, Nat.add_comm, testBit_two_mul_succ,
    apply_ite (fun v => Nat.testBit v k), Nat.one_shiftLeft, Nat.testBit_two_pow]
  rcases Nat.lt_trichotomy k (n - 1) with h | rfl | h
  · have hk : k + 1 < n := by omega
    simp [hk, h.ne']
  · have hk : ¬ (n - 1 + 1 < n) := by omega
    simp [hk]
  · have hk : ¬ (k + 1 < n) := by omega
    simp [hk, h.ne, testBit_of_lt_of_le hs (show n ≤ k by omega)]

/-- The step on the states of `n` bits. -/
def stepFin (g n : Nat) (s : Fin (2 ^ n)) : Fin (2 ^ n) := ⟨(lfsrStep s g n).2, lfsrStep_state_lt s g n⟩

theorem stepFin_injective (g : Nat) {n : Nat} (hn : 1 ≤ n) : Function.Injective (stepFin g n) := by
  intro s s' h
  have hstate : (lfsrStep s g n).2 = (lfsrStep s' g n).2 := congrArg Fin.val h
  refine Fin.ext ?_
  rw [lfsrStep_inverse g hn s.isLt, lfsrStep_inverse g hn s'.isLt, hstate]

theorem iterate_stepFin (g n t : Nat) (s : Fin (2 ^ n)) : ((stepFin g n)^[t] s).val = lfsrIterate g n t s := by
  induction t generalizing s with
  | zero => rfl
  | succ t ih => exact ih _

/-- Settles O36: the inverse bit by bit; a step that can be undone on a finite set reaches every state. -/
theorem lfsrStepIsInvertible : Obligations.LfsrStepIsInvertible := by
  refine fun g n hn => ⟨fun s hs => ⟨lfsrStep_state_lt s g n, lfsrStep_inverse g hn hs⟩, fun m hm => ?_⟩
  obtain ⟨s, hstep⟩ := Finite.surjective_of_injective (stepFin_injective g hn) ⟨m, hm⟩
  exact ⟨s, s.isLt, congrArg Fin.val hstep⟩

theorem lfsrStep_zero (g : Nat) {n : Nat} (hn : 1 ≤ n) : (lfsrStep 0 g n).2 = 0 := by
  rw [lfsrStep_state_eq 0 g hn]
  simp

/-- Every state returns, because the step permutes finitely many states. -/
theorem exists_lfsrIterate_eq_self {s n : Nat} (g : Nat) (hn : 1 ≤ n) (hs : s < 2 ^ n) :
    ∃ t, 1 ≤ t ∧ t ≤ 2 ^ n ∧ lfsrIterate g n t s = s := by
  let x : Fin (2 ^ n) := ⟨s, hs⟩
  have hperiodic : x ∈ Function.periodicPts (stepFin g n) :=
    (stepFin_injective g hn).mem_periodicPts x
  refine ⟨Function.minimalPeriod (stepFin g n) x, Function.minimalPeriod_pos_of_mem_periodicPts hperiodic, ?_, ?_⟩
  · simpa using Function.minimalPeriod_le_card (f := stepFin g n) (x := x)
  · rw [← iterate_stepFin g n _ x, Function.iterate_minimalPeriod]

/-- Settles O37: the step permutes the states, and 0 shifts no bit out. -/
theorem everyLfsrStateReturns : Obligations.EveryLfsrStateReturns :=
  fun g _ _ hn hs => ⟨exists_lfsrIterate_eq_self g hn hs, lfsrStep_zero g hn⟩

/-! ## The operations of the LFSR unit (41_lfsr.md R74 to R78, R84, R85) -/

/-- An operation whose tests pass is answered with its effect. -/
theorem exec_of_tests_pass {i : Instr} {s : State} (hv : isInit i = true ∨ s.slotValid (slotOf i) = true)
    (ht : operandFault switches i s.toBlock = none) : exec i s = answer (carryOut switches i s.toBlock) s :=
  exec_of_faultOf_eq_none ((faultOf_eq_none_iff switches i s.toBlock).2 ⟨hv, ht⟩)

theorem exec_of_not_configured {i : Instr} {s : State} (hi : isInit i = false) (hv : s.slotValid (slotOf i) = false) :
    exec i s = .next (respond (.fault (.notConfigured (slotOf i))) s) :=
  (faults_iff i s _).2 ((faultOf_eq_notConfigured_iff switches i s.toBlock _).2 ⟨hi, rfl, hv⟩)

theorem lfsrStep_unconfigured (stateFlag : Bool) {s : State} (hv : s.l.valid = false) :
    Faults (.lfsrStep stateFlag) s (.notConfigured .L) :=
  exec_of_not_configured (i := .lfsrStep stateFlag) rfl hv

theorem lfsrSteps_unconfigured (count : Nat) {s : State} (hv : s.l.valid = false) :
    Faults (.lfsrSteps count) s (.notConfigured .L) :=
  exec_of_not_configured (i := .lfsrSteps count) rfl hv

/-- Settles O28: the whole slot is written when the tests pass. -/
theorem lfsrInitConfiguresTheSlot : Obligations.LfsrInitConfiguresTheSlot := by
  intro g n seed s hn hseed
  rw [Completes, exec_lfsrInit, opLfsrInit_switches g _ hn hseed, answer_complete]
  rfl

theorem lfsrSet_completes {v : Nat} {s : State} (hv : s.l.valid = true) (hfit : v < 2 ^ s.l.n) :
    Completes (.lfsrSet v) s [] { s with l := { s.l with r := v } } := by
  rw [Completes, exec_of_tests_pass (i := .lfsrSet v) (.inr hv) (by simp [operandFault, hfit]), carryOut,
    answer_complete]
  rfl

theorem lfsrGet_completes {s : State} (hv : s.l.valid = true) : Completes .lfsrGet s [.nat s.l.r] s := by
  rw [Completes, exec_of_tests_pass (i := .lfsrGet) (.inr hv) rfl, carryOut, answer_complete]

/-- Settles O29: a get reads the register that a set has written. -/
theorem lfsrSetWritesAndGetReads : Obligations.LfsrSetWritesAndGetReads :=
  ⟨fun _ _ hv hfit => lfsrSet_completes hv hfit, fun _ hv => lfsrGet_completes hv,
    fun _ _ hv hfit => ⟨_, lfsrSet_completes hv hfit, lfsrGet_completes (by exact hv)⟩⟩

theorem lfsrStep_completes (stateFlag : Bool) {s : State} (hv : s.l.valid = true) :
    Completes (.lfsrStep stateFlag) s
      (if stateFlag then [.bit (lfsrStep s.l.r s.l.g s.l.n).1, .nat (lfsrStep s.l.r s.l.g s.l.n).2]
        else [.bit (lfsrStep s.l.r s.l.g s.l.n).1])
      { s with l := { s.l with r := (lfsrStep s.l.r s.l.g s.l.n).2 } } := by
  rw [Completes, exec_of_tests_pass (i := .lfsrStep stateFlag) (.inr hv) rfl, carryOut, answer_complete]
  rfl

/-- Settles O31: the new register is the closed form of the step. -/
theorem lfsrStepStepsTheRegister : Obligations.LfsrStepStepsTheRegister := by
  intro stateFlag s hv hinv
  have hstep := lfsrStep_completes stateFlag hv
  rwa [lfsrStep_eq_closedForm s.l.r s.l.g (hinv hv).1] at hstep

theorem lfsrSteps_completes (count : Nat) {s : State} (hv : s.l.valid = true) :
    Completes (.lfsrSteps count) s []
      { s with l := { s.l with r := lfsrIterate s.l.g s.l.n count s.l.r },
               sink := s.sink ++ (lfsrRun count s.l.r s.l.g s.l.n).1 } := by
  rw [Completes, exec_of_tests_pass (i := .lfsrSteps count) (.inr hv) rfl, carryOut, lfsrRun_state]
  rfl

/-- The bits a run emits are the top bits of the states it reaches. -/
theorem lfsrRun_bits (count s g : Nat) {n : Nat} (hn : 1 ≤ n) :
    (lfsrRun count s g n).1 =
      (List.range count).map fun j => (lfsrIterate g n (j + 1) s).testBit (n - 1) := by
  induction count generalizing s with
  | zero => rfl
  | succ count ih =>
    rw [List.range_succ_eq_map, List.map_cons, List.map_map, lfsrRun]
    simp only [ih, lfsrStep_out s g n hn]
    rfl

/-- Settles O32: the run's state and its bits, by induction on the count. -/
theorem lfsrStepsEmitsEachNewTopBit : Obligations.LfsrStepsEmitsEachNewTopBit := by
  intro count s hv hinv
  have hsteps := lfsrSteps_completes count hv
  rwa [lfsrRun_bits count s.l.r s.l.g (hinv hv).1] at hsteps

/-- A run in two parts: the second goes on from the state the first leaves. -/
theorem lfsrRun_add (a b s g n : Nat) :
    (lfsrRun (a + b) s g n).1 = (lfsrRun a s g n).1 ++ (lfsrRun b (lfsrIterate g n a s) g n).1 ∧
      lfsrIterate g n (a + b) s = lfsrIterate g n b (lfsrIterate g n a s) := by
  induction a generalizing s with
  | zero => simp [lfsrRun, lfsrIterate]
  | succ a ih =>
    obtain ⟨hbits, hstate⟩ := ih (lfsrStep s g n).2
    rw [Nat.succ_add]
    exact ⟨by simp [lfsrRun, hbits, lfsrIterate], hstate⟩

/-- `LFSR.STEPS a` then `LFSR.STEPS b`, on a configured slot or on another. -/
theorem lfsrSteps_lfsrSteps {a b : Nat} {s t u : State} (ha : exec (.lfsrSteps a) s = .next t)
    (hb : exec (.lfsrSteps b) t = .next u) :
    ∃ v, exec (.lfsrSteps (a + b)) s = .next v ∧ v.l = u.l ∧ v.sink = u.sink := by
  cases hv : s.l.valid
  · obtain rfl := Host.Outcome.next.inj ((lfsrSteps_unconfigured a hv).symm.trans ha)
    obtain rfl := Host.Outcome.next.inj ((lfsrSteps_unconfigured b (by exact hv)).symm.trans hb)
    exact ⟨_, lfsrSteps_unconfigured (a + b) hv, rfl, rfl⟩
  · obtain rfl := Host.Outcome.next.inj ((lfsrSteps_completes a hv).symm.trans ha)
    obtain rfl := Host.Outcome.next.inj ((lfsrSteps_completes b (by exact hv)).symm.trans hb)
    obtain ⟨hbits, hstate⟩ := lfsrRun_add a b s.l.r s.l.g s.l.n
    exact ⟨_, lfsrSteps_completes (a + b) hv, by simp [hstate], by simp [hbits]⟩

/-- `LFSR.STEP` then `LFSR.STEPS k`, on a configured slot or on another. -/
theorem lfsrStep_lfsrSteps {f : Bool} {k : Nat} {s t u : State} (hstep : exec (.lfsrStep f) s = .next t)
    (hsteps : exec (.lfsrSteps k) t = .next u) : ∃ v, exec (.lfsrSteps (k + 1)) s = .next v ∧ v.l = u.l := by
  cases hv : s.l.valid
  · obtain rfl := Host.Outcome.next.inj ((lfsrStep_unconfigured f hv).symm.trans hstep)
    obtain rfl := Host.Outcome.next.inj ((lfsrSteps_unconfigured k (by exact hv)).symm.trans hsteps)
    exact ⟨_, lfsrSteps_unconfigured (k + 1) hv, rfl⟩
  · obtain rfl := Host.Outcome.next.inj ((lfsrStep_completes f hv).symm.trans hstep)
    obtain rfl := Host.Outcome.next.inj ((lfsrSteps_completes k (by exact hv)).symm.trans hsteps)
    exact ⟨_, lfsrSteps_completes (k + 1) hv, rfl⟩

/-- Settles O33: runs compose, and an unconfigured slot stays as it is through both operations. -/
theorem lfsrStepsCompose : Obligations.LfsrStepsCompose :=
  ⟨fun _ _ _ _ _ => lfsrSteps_lfsrSteps, fun s hv => by simpa [lfsrRun, lfsrIterate] using lfsrSteps_completes 0 hv,
    fun _ _ _ _ _ => lfsrStep_lfsrSteps⟩

/-- A step reads the low `n` bits of the register alone (41_lfsr.md R85). -/
theorem lfsrStep_mod_two_pow (s g n : Nat) : lfsrStep (s % 2 ^ n) g n = lfsrStep s g n := by
  have hdouble : toBits (2 * (s % 2 ^ n)) n = toBits (2 * s) n := by
    rw [← toBits_mod_two_pow, ← toBits_mod_two_pow (2 * s), Nat.mul_mod_mod]
  simp only [lfsrStep, toBits_mod_two_pow, hdouble]

/-- The operation at the configuration `cfg`, when its tests pass there. -/
theorem execWith_of_tests_pass {cfg : Config} {i : Instr} {s : State}
    (hv : isInit i = true ∨ s.slotValid (slotOf i) = true) (ht : operandFault cfg i s.toBlock = none) :
    execWith cfg i s = answer (carryOut cfg i s.toBlock) s := by
  rw [execWith, operate_of_faultOf_eq_none ((faultOf_eq_none_iff cfg i s.toBlock).2 ⟨hv, ht⟩)]

/-- Settles O38: with `keep_verbatim` no test of a width is left, the step reads the low bits alone, and on narrow
values the test that is missing would pass. -/
theorem keepVerbatimStoresWideStates : Obligations.KeepVerbatimStoresWideStates := by
  rintro cfg rfl
  refine ⟨fun g n seed s hn => ?_, fun v s hv => ?_, fun s hv => lfsrGet_completes hv, fun f s => ?_,
    fun g n seed s hseed => ?_, fun v s hfit => ?_⟩
  · have hsign : ¬ (seed : Int) < 0 := by omega
    rw [execWith_of_tests_pass (.inl rfl) (by simp [operandFault, hsign, Nat.ne_of_gt hn, tooWide, overNmax, switches]),
      carryOut, answer_complete]
    rfl
  · rw [execWith_of_tests_pass (i := .lfsrSet v) (.inr hv) rfl, carryOut, answer_complete]
    rfl
  · rw [lfsrStep_mod_two_pow]
    split
    · exact lfsrStep_completes f ‹_›
    · exact lfsrStep_unconfigured f (Bool.eq_false_of_not_eq_true ‹_›)
  · simp [execWith, exec_lfsrInit, operate, opLfsrInit, tooWide, Nat.not_le.2 hseed, overNmax, switches]
  · simp [execWith, exec_eq_answer_operate, operate, opLfsrSet, tooWide, Nat.not_le.2 hfit, switches]

end Sys2Proof.Machine

/-! ## What a division computes (42_poly_divider.md R92 to R101) -/

namespace Sys2Proof.Machine

/-- The `top` of an iteration is that of the register the earlier iterations leave. -/
theorem bitAt_divTops (cfg : Config) (g p r : Nat) {d : Bits} {j : Nat} (hj : j < d.length) :
    bitAt (divTops cfg g p r d) j = topBit (divLoop cfg g p r (d.take j)).2 p := by
  induction d generalizing r j with
  | nil => simp at hj
  | cons b d ih =>
    cases j with
    | zero => rfl
    | succ j => exact ih (divStep cfg g p r b) (Nat.lt_of_succ_lt_succ hj)

/-- One more dividend bit: one more `top`, of the register before it. -/
theorem divTops_concat (cfg : Config) (g p r : Nat) (d : Bits) (c : Bool) :
    divTops cfg g p r (d ++ [c]) = divTops cfg g p r d ++ [topBit (divLoop cfg g p r d).2 p] := by
  induction d generalizing r with
  | nil => rfl
  | cons b d ih => simp [divTops, ih, divLoop]

theorem division_register_concat (cfg : Config) (g p : Nat) (d : Bits) (c : Bool) :
    (division cfg g p (d ++ [c])).2 = divStep cfg g p (division cfg g p d).2 c :=
  divLoop_register_append cfg g p 0 d [c]

/-- THE LOOP IS LONG DIVISION, of whatever polynomial `b` its iteration divides by: where a reading `φ` of the register
begins at 0, shows the `top` as the coefficient below the degree, and goes on as a pass of schoolbook division does, the
register reads as the remainder at the end and the `top` bits are the quotient. -/
theorem division_eq_longDiv {cfg : Config} {g p b q : Nat} {φ : Nat → Nat} (hq : b.testBit q = true)
    (hb : b < 2 ^ (q + 1)) (h1 : 1 ≤ q) (h0 : φ 0 = 0) (htop : ∀ r, topBit r p = (φ r).testBit (q - 1))
    (hstep : ∀ r c, φ r < 2 ^ q → φ (divStep cfg g p r c) = remainderStep b q (φ r) c) (d : Bits) :
    φ (division cfg g p d).2 = polyMod (fromBits d) b q ∧
      fromBits (divTops cfg g p 0 d) = polyQuot (fromBits d) b q := by
  induction d using List.reverseRecOn with
  | nil =>
    obtain ⟨hquot, hrem⟩ := longDiv_of_lt hq hb (show 0 < 2 ^ q by positivity)
    exact ⟨h0.trans hrem.symm, hquot.symm⟩
  | append_singleton d c ih =>
    obtain ⟨hrem, hquot⟩ := ih
    obtain ⟨hquot', hrem'⟩ := longDiv_two_mul_add hq hb h1 (fromBits d) c
    have hreg : (divLoop cfg g p 0 d).2 = (division cfg g p d).2 := rfl
    rw [division_register_concat, divTops_concat, fromBits_concat, fromBits_concat, hquot, hreg, htop, hrem, hquot',
      hrem']
    exact ⟨by rw [hstep _ c (hrem ▸ polyMod_lt hq hb _), hrem], rfl⟩

/-! ### One iteration -/

/-- A bit XORed in at the low end. -/
theorem injectBit0_xor (x : Nat) (b : Bool) : injectBit0 x (x.testBit 0 ^^ b) = x ^^^ b.toNat := by
  refine Nat.eq_of_testBit_eq fun k => ?_
  rw [testBit_injectBit0, Nat.testBit_xor]
  cases k with
  | zero => cases b <;> simp
  | succ k => cases b <;> simp [Nat.testBit_succ]

/-- The iteration in closed form (42_poly_divider.md R94): the feedback replaces a bit that is the `top`. -/
theorem divStep_closedForm (r g : Nat) {p : Nat} (b : Bool) (hp : 1 ≤ p) :
    divStep switches g p r b = (lfsrStep r g p).2 ^^^ b.toNat := by
  have hlow : (lfsrStep r g p).2.testBit 0 = topBit r p := by
    rw [testBit_lfsrStep]
    simp [Nat.lt_of_succ_le hp, topBit]
  rw [divStep, ← hlow]
  exact injectBit0_xor _ b

/-- The iteration is a pass of the division by the effective divisor. -/
theorem divStep_eq_remainderStep {r p : Nat} (g : Nat) (b : Bool) (hp : 1 ≤ p) (hr : r < 2 ^ p) :
    divStep switches g p r b = remainderStep (effectivePoly g p) p r b := by
  rw [divStep_closedForm r g b hp, lfsrStep_state_eq_remainderStep g hp hr, remainderStep, remainderStep]
  have hadd := two_mul_xor_add r 0 b
  simp only [Nat.xor_zero, Nat.mul_zero, Nat.zero_add] at hadd
  rw [hadd, Bool.toNat_false, Nat.add_zero]
  ac_rfl

/-- Settles O42: the two actions of an iteration cancel at bit 0, and what is left is a pass of the long division. -/
theorem dividerIterationIsItsClosedForm : Obligations.DividerIterationIsItsClosedForm := by
  intro r g p b hp hr
  obtain ⟨hmonic, hdegree⟩ := effectivePoly_monic g hp
  refine ⟨?_, ?_⟩
  · rw [divStep_closedForm r g b hp, lfsrStep_state_eq r g hp]
  · rw [divStep_eq_remainderStep g b hp hr, remainderStep_eq_polyMod hmonic hdegree hp b hr]

/-! ### The division at the spec's configuration -/

theorem division_switches (g : Nat) {p : Nat} (d : Bits) (hp : 1 ≤ p) :
    (division switches g p d).2 = polyMod (fromBits d) (effectivePoly g p) p ∧
      fromBits (divTops switches g p 0 d) = polyQuot (fromBits d) (effectivePoly g p) p := by
  obtain ⟨hmonic, hdegree⟩ := effectivePoly_monic g hp
  exact division_eq_longDiv (φ := id) hmonic hdegree hp rfl (fun _ => rfl)
    (fun r c hr => divStep_eq_remainderStep g c hp hr) d

theorem division_identity (g : Nat) {p : Nat} (d : Bits) (hp : 1 ≤ p) :
    clMul (fromBits (divTops switches g p 0 d)) (effectivePoly g p) ^^^ (division switches g p d).2 = fromBits d := by
  obtain ⟨hmonic, hdegree⟩ := effectivePoly_monic g hp
  obtain ⟨hrem, hquot⟩ := division_switches g d hp
  rw [hrem, hquot]
  exact (longDiv_spec hmonic hdegree _).1

/-- A division of a dividend no longer than the degree leaves the dividend. -/
theorem division_register_of_short (g : Nat) {p : Nat} {d : Bits} (hp : 1 ≤ p) (hd : d.length ≤ p) :
    (division switches g p d).2 = fromBits d := by
  obtain ⟨hmonic, hdegree⟩ := effectivePoly_monic g hp
  have hlt : fromBits d < 2 ^ p := (fromBits_lt d).trans_le (Nat.pow_le_pow_right Nat.two_pos hd)
  rw [(division_switches g d hp).1, (longDiv_of_lt hmonic hdegree hlt).2]

/-- The first `p` of the `top` bits are 0: so far the register holds the front part of the dividend, of fewer than `p`
bits. -/
theorem bitAt_divTops_of_lt (g : Nat) {p : Nat} {d : Bits} {j : Nat} (hp : 1 ≤ p) (hj : j < min p d.length) :
    bitAt (divTops switches g p 0 d) j = false := by
  obtain ⟨hjp, hjd⟩ := Nat.lt_min.1 hj
  have hlength : (d.take j).length = j := List.length_take_of_le hjd.le
  have hlt := fromBits_lt (d.take j)
  rw [hlength] at hlt
  rw [bitAt_divTops _ _ _ _ hjd, topBit]
  show (division switches g p (d.take j)).2.testBit (p - 1) = false
  rw [division_register_of_short g hp (by omega)]
  exact testBit_of_lt_of_le hlt (by omega)

/-- Settles O43: the loop is the long division by the effective divisor. -/
theorem divisionLoopIsLongDivision : Obligations.DivisionLoopIsLongDivision := by
  intro g p d hp
  obtain ⟨hmonic, hdegree⟩ := effectivePoly_monic g hp
  obtain ⟨hrem, hquot⟩ := division_switches g d hp
  exact ⟨⟨hrem, hrem ▸ polyMod_lt hmonic hdegree _⟩, hquot, fun j hj => bitAt_divTops_of_lt g hp hj,
    (division_identity g d hp).symm⟩

/-- A sequence is its front part and its last bit. -/
theorem fromBits_eq_dropLast {A : Bits} (hA : A ≠ []) :
    fromBits A = 2 * fromBits A.dropLast + (bitAt A (A.length - 1)).toNat := by
  obtain ⟨B, c, rfl⟩ := List.eq_nil_or_concat' A |>.resolve_left hA
  have hlast := bitAt_append_length_add B [c] 0
  rw [List.dropLast_concat, fromBits_concat, List.length_append, List.length_singleton, Nat.add_sub_cancel]
  rw [Nat.add_zero] at hlast
  rw [hlast]
  rfl

theorem divTops_ne_nil (cfg : Config) (g p r : Nat) {d : Bits} (hd : d ≠ []) : divTops cfg g p r d ≠ [] := by
  rw [Ne, ← List.length_eq_zero_iff, divTops_length, List.length_eq_zero_iff]
  exact hd

/-- The `top` bits are the quotient returned and the last one, which is not. -/
theorem fromBits_divTops (g p : Nat) {d : Bits} (hd : d ≠ []) :
    fromBits (divTops switches g p 0 d) = 2 * fromBits (division switches g p d).1 +
      (bitAt (divTops switches g p 0 d) (d.length - 1)).toNat := by
  rw [division, divLoop_quotient_preTop switches rfl, ← divTops_length switches g p 0 d]
  exact fromBits_eq_dropLast (divTops_ne_nil _ _ _ _ hd)

theorem division_quotient (g : Nat) {p : Nat} {d : Bits} (hp : 1 ≤ p) (hd : d ≠ []) :
    fromBits (division switches g p d).1 = polyQuot (fromBits d) (effectivePoly g p) p / 2 := by
  have hbit := Bool.toNat_lt (bitAt (divTops switches g p 0 d) (d.length - 1))
  rw [← (division_switches g d hp).2, fromBits_divTops g p hd]
  omega

/-- Settles O44: the quotient returned lacks the last of the `top` bits. -/
theorem quotientIsTheTrueQuotientHalved : Obligations.QuotientIsTheTrueQuotientHalved := by
  refine ⟨fun g p d hp hd => ⟨divLoop_quotient_length _ _ _ _ _, division_quotient g hp hd, ?_⟩, by decide, by decide⟩
  show clMul (2 * fromBits (division switches g p d).1 + _) _ ^^^ _ = _
  rw [← fromBits_divTops g p hd]
  exact division_identity g d hp

/-! ### Short dividends, leading zeros and corner cases (42_poly_divider.md R97, R98) -/

theorem division_quotient_of_short (g : Nat) {p : Nat} {d : Bits} (hp : 1 ≤ p) (hd : d.length ≤ p) :
    (division switches g p d).1 = zeros (d.length - 1) := by
  have htops : divTops switches g p 0 d = zeros d.length := by
    refine eq_of_bitAt_eq (by simp) fun j hj => ?_
    rw [divTops_length] at hj
    rw [bitAt_divTops_of_lt g hp (by omega)]
    simp [bitAt, zeros, List.getD_eq_getElem?_getD, hj]
  rw [division, divLoop_quotient_preTop switches rfl, htops]
  simp [zeros]

theorem divStep_zero_false (g : Nat) {p : Nat} (hp : 1 ≤ p) : divStep switches g p 0 false = 0 := by
  rw [divStep_closedForm 0 g false hp, lfsrStep_zero g hp]
  rfl

/-- A leading zero leaves the register 0 and puts one zero in front of the quotient. -/
theorem division_false_cons (g : Nat) {p : Nat} {d : Bits} (hp : 1 ≤ p) (hd : d ≠ []) :
    division switches g p (false :: d) = (false :: (division switches g p d).1, (division switches g p d).2) := by
  have htop : topBit 0 p = false := Nat.zero_testBit _
  simp [division, divLoop, divStep_zero_false g hp, hd, quotientCandidate, htop]

theorem division_zeros_append (g : Nat) {p : Nat} (k : Nat) {d : Bits} (hp : 1 ≤ p) (hd : d ≠ []) :
    division switches g p (zeros k ++ d) = (zeros k ++ (division switches g p d).1, (division switches g p d).2) := by
  induction k with
  | zero => rfl
  | succ k ih =>
    have hne : zeros k ++ d ≠ [] := List.append_ne_nil_of_right_ne_nil _ hd
    have hzeros : zeros (k + 1) = false :: zeros k := rfl
    rw [hzeros, List.cons_append, division_false_cons g hp hne, ih]
    rfl

/-- Settles O45: a short dividend never fills the register, and leading zeros leave it 0. -/
theorem shortDividendsAndLeadingZeros : Obligations.ShortDividendsAndLeadingZeros := by
  refine ⟨fun g p d hp _ hd => ⟨division_quotient_of_short g hp hd, ?_⟩, fun g p k d hp hd => ?_⟩
  · have hsplit := toBits_add_length (p - d.length) (fromBits_lt d)
    rw [division_register_of_short g hp hd]
    rwa [Nat.sub_add_cancel hd, toBits_fromBits] at hsplit
  · rw [division_zeros_append g k hp hd]
    exact ⟨rfl, rfl⟩

theorem divStep_of_degree_one (g r : Nat) (b : Bool) (hr : r < 2) : divStep switches g 1 r b = r ^^^ b.toNat := by
  have htaps : taps g 1 = 1 := by rcases Nat.mod_two_eq_zero_or_one g with h | h <;> simp [taps, h]
  rw [divStep_closedForm r g b le_rfl, lfsrStep_state_eq r g le_rfl, htaps]
  interval_cases r <;> simp

/-- With a divisor of degree 1 the register is the parity of the dividend. -/
theorem division_degree_one (g : Nat) (d : Bits) : (division switches g 1 d).2 = d.count true % 2 := by
  induction d using List.reverseRecOn with
  | nil => rfl
  | append_singleton d c ih =>
    rw [division_register_concat, ih, divStep_of_degree_one g _ c (Nat.mod_lt _ Nat.two_pos), List.count_append]
    rcases Nat.mod_two_eq_zero_or_one (d.count true) with h | h <;> cases c <;> simp [h, Nat.add_mod]

/-- Two loops whose iterations agree and that tap the same bit are the same loop. -/
theorem divLoop_congr (cfg cfg' : Config) {g g' p : Nat} (htap : cfg.qTap = cfg'.qTap)
    (hstep : ∀ r b, divStep cfg g p r b = divStep cfg' g' p r b) (r : Nat) (d : Bits) :
    divLoop cfg g p r d = divLoop cfg' g' p r d := by
  induction d generalizing r with
  | nil => rfl
  | cons b d ih => simp only [divLoop, hstep, htap, ih]

/-- A division reads the middle coefficients of the divisor alone. -/
theorem division_congr {g g' p : Nat} (cfg : Config) (hp : 1 ≤ p)
    (h : ∀ k, 1 ≤ k → k < p → g.testBit k = g'.testBit k) (d : Bits) : division cfg g p d = division cfg g' p d :=
  divLoop_congr cfg cfg rfl (fun r b => by simp only [divStep, divIter, lfsrStep_congr _ hp h]) 0 d

/-- Settles O46: degree 1 by induction on the dividend; the divisor is 1 times itself; only the middle coefficients
matter. -/
theorem divisionCornerCases : Obligations.DivisionCornerCases := by
  refine ⟨division_degree_one, fun g p hp => ?_, fun g p d hp => division_congr switches hp (fun k hk hkp => ?_) d⟩
  · obtain ⟨hmonic, hdegree⟩ := effectivePoly_monic g hp
    rw [(division_switches g _ hp).1, fromBits_toBits, Nat.mod_eq_of_lt hdegree]
    exact (longDiv_unique hmonic hdegree (q := 1) (r := 0) (by simp) (by positivity)).2
  · have hk0 : k ≠ 0 := by omega
    simp [testBit_effectivePoly g hp, hkp, hkp.ne, hk0]

end Sys2Proof.Machine

/-! ## The literal order of the source (42_poly_divider.md R100) -/

namespace Sys2Proof.Machine

/-- The switches with the literal order of the source. -/
def literalOrder : Config := { switches with divOrder := .injectThenClock }

/-- The polynomial `h` that the literal order divides by (42_poly_divider.md R100). -/
def literalDivisor (g p : Nat) : Nat := 2 ^ (p - 1) + 2 * ((g % 2 ^ p) / 4) + (if g.testBit 1 then 0 else 1)

theorem testBit_two_pow_add {n v : Nat} (hv : v < 2 ^ n) (k : Nat) :
    (2 ^ n + v).testBit k = (decide (k = n) || v.testBit k) := by
  have hor := Nat.two_pow_add_eq_or_of_lt hv 1
  rw [Nat.mul_one] at hor
  rw [hor, Nat.testBit_or, Nat.testBit_two_pow]
  simp [eq_comm]

/-- `h` is monic of degree `p − 1`; below that its bit 0 is the inverted coefficient of `x` of `g`, and the others are
those of `g` one place up. -/
theorem testBit_literalDivisor (g : Nat) {p : Nat} (hp : 2 ≤ p) (k : Nat) :
    (literalDivisor g p).testBit k =
      (decide (k = p - 1) || (decide (k < p - 1) && if k = 0 then !g.testBit 1 else g.testBit (k + 1))) := by
  have hlow : ∀ j, (2 * ((g % 2 ^ p) / 4) + (!g.testBit 1).toNat).testBit j =
      (decide (j < p - 1) && if j = 0 then !g.testBit 1 else g.testBit (j + 1)) := by
    intro j
    rw [testBit_two_mul_add]
    cases j with
    | zero =>
      have hpos : 0 < p - 1 := by omega
      simp [hpos]
    | succ j =>
      have hquarter : (g % 2 ^ p / 4).testBit j = (decide (j + 2 < p) && g.testBit (j + 2)) := by
        rw [show 4 = 2 ^ 2 from rfl, Nat.testBit_div_two_pow, Nat.testBit_mod_two_pow]
      have hiff : j + 2 < p ↔ j + 1 < p - 1 := by omega
      simp [hquarter, hiff]
  have hlt : 2 * ((g % 2 ^ p) / 4) + (!g.testBit 1).toNat < 2 ^ (p - 1) :=
    Nat.lt_pow_two_of_testBit _ fun j hj => by simp [hlow, Nat.not_lt.2 hj]
  have hsum : literalDivisor g p = 2 ^ (p - 1) + (2 * ((g % 2 ^ p) / 4) + (!g.testBit 1).toNat) := by
    rw [literalDivisor, Nat.add_assoc]
    cases g.testBit 1 <;> rfl
  rw [hsum, testBit_two_pow_add hlt, hlow]

theorem literalDivisor_monic (g : Nat) {p : Nat} (hp : 2 ≤ p) :
    (literalDivisor g p).testBit (p - 1) = true ∧ literalDivisor g p < 2 ^ (p - 1 + 1) := by
  refine ⟨by simp [testBit_literalDivisor g hp], Nat.lt_pow_two_of_testBit _ fun k hk => ?_⟩
  have h1 : k ≠ p - 1 := by omega
  have h2 : ¬ k < p - 1 := by omega
  simp [testBit_literalDivisor g hp, h1, h2]

/-- The literal order injects into the register before the step; the bit injected is not the one shifted out. -/
theorem testBit_divStep_literalOrder (r g : Nat) {p : Nat} (c : Bool) (hp : 2 ≤ p) (k : Nat) :
    (divStep literalOrder g p r c).testBit k =
      (decide (k < p) && if k = 0 then topBit r p
        else (if k - 1 = 0 then topBit r p ^^ c else r.testBit (k - 1)) ^^ (g.testBit k && topBit r p)) := by
  have hp1 : p - 1 ≠ 0 := by omega
  show (lfsrStep (injectBit0 r (topBit r p ^^ c)) g p).2.testBit k = _
  rw [testBit_lfsrStep, testBit_injectBit0, testBit_injectBit0, if_neg hp1]
  rfl

/-- Without its bit 0, the register goes on as a pass of the division by `h` does. -/
theorem divStep_literalOrder_shiftRight {r p : Nat} (g : Nat) (c : Bool) (hp : 2 ≤ p) (hr : r >>> 1 < 2 ^ (p - 1)) :
    divStep literalOrder g p r c >>> 1 = remainderStep (literalDivisor g p) (p - 1) (r >>> 1) c := by
  have htop : (r >>> 1).testBit (p - 1 - 1) = topBit r p := by
    rw [Nat.testBit_shiftRight, topBit]
    congr 1
    omega
  refine Nat.eq_of_testBit_eq fun k => ?_
  rw [Nat.testBit_shiftRight, Nat.add_comm, testBit_divStep_literalOrder r g c hp, remainderStep, Nat.testBit_xor,
    testBit_two_mul_add, htop, apply_ite (fun v => Nat.testBit v k), testBit_literalDivisor g hp]
  have hshift : k ≠ 0 → (r >>> 1).testBit (k - 1) = r.testBit k := fun hk => by
    rw [Nat.testBit_shiftRight, Nat.add_sub_cancel' (Nat.one_le_iff_ne_zero.2 hk)]
  rcases Nat.lt_trichotomy k (p - 1) with h | rfl | h
  · have hkp : k + 1 < p := by omega
    by_cases h0 : k = 0
    · subst h0
      have hp1 : 0 ≠ p - 1 := by omega
      cases topBit r p <;> cases g.testBit 1 <;> simp [hkp, hp1, h]
    · cases topBit r p <;> simp [hkp, h0, h, h.ne, hshift h0]
  · have hk0 : p - 1 ≠ 0 := by omega
    have hkp : ¬ p - 1 + 1 < p := by omega
    have hr1 : r.testBit (p - 1) = topBit r p := rfl
    cases htop' : topBit r p <;> simp [hkp, hk0, hshift hk0, hr1, htop']
  · have hk0 : k ≠ 0 := by omega
    have hkp : ¬ k + 1 < p := by omega
    have hzero : (r >>> 1).testBit (k - 1) = false := testBit_of_lt_of_le hr (by omega)
    simp [hkp, hk0, hzero, h.ne', h.not_gt]

theorem division_literalOrder (g : Nat) {p : Nat} (d : Bits) (hp : 2 ≤ p) :
    (division literalOrder g p d).2 >>> 1 = polyMod (fromBits d) (literalDivisor g p) (p - 1) ∧
      fromBits (divTops literalOrder g p 0 d) = polyQuot (fromBits d) (literalDivisor g p) (p - 1) := by
  obtain ⟨hmonic, hdegree⟩ := literalDivisor_monic g hp
  refine division_eq_longDiv (φ := (· >>> 1)) hmonic hdegree (by omega) rfl (fun r => ?_)
    (fun r c hr => divStep_literalOrder_shiftRight g c hp hr) d
  rw [Nat.testBit_shiftRight, topBit]
  congr 1
  omega

/-- The last `top` is the bit the last iteration shifts in. -/
theorem testBit_zero_division_literalOrder (g : Nat) {p : Nat} {d : Bits} (hp : 2 ≤ p) (hd : d ≠ []) :
    (division literalOrder g p d).2.testBit 0 = bitAt (divTops literalOrder g p 0 d) (d.length - 1) := by
  obtain ⟨B, c, rfl⟩ := List.eq_nil_or_concat' d |>.resolve_left hd
  have hlength : (B ++ [c]).length - 1 = B.length := by simp
  have hpos : 0 < p := by omega
  rw [hlength, bitAt_divTops _ _ _ _ (by simp), List.take_left, division_register_concat,
    testBit_divStep_literalOrder _ g c hp]
  simp [hpos, division]

/-- With degree 1 the register is one bit, and either order leaves the feedback in it. -/
theorem divStep_literalOrder_degree_one (g r : Nat) (c : Bool) :
    divStep literalOrder g 1 r c = divStep switches g 1 r c := by
  refine Nat.eq_of_testBit_eq fun k => ?_
  show (lfsrStep (injectBit0 r (topBit r 1 ^^ c)) g 1).2.testBit k =
    (injectBit0 (lfsrStep r g 1).2 (topBit r 1 ^^ c)).testBit k
  rw [testBit_injectBit0, testBit_lfsrStep, testBit_lfsrStep, testBit_injectBit0]
  cases k <;> simp

/-- Settles O47: without its bit 0 the register divides by `h`; with degree 1 there is nothing else than that bit. -/
theorem injectThenClockDividesByAnotherPolynomial : Obligations.InjectThenClockDividesByAnotherPolynomial := by
  refine ⟨fun g p d hp hd => ?_, fun g d =>
    divLoop_congr literalOrder switches rfl (divStep_literalOrder_degree_one g) 0 d⟩
  obtain ⟨hrem, hquot⟩ := division_literalOrder g d hp
  exact ⟨hrem, testBit_zero_division_literalOrder g hp hd, hquot⟩

/-! ## The tap after the iteration (42_poly_divider.md R101) -/

/-- The switches with the tap after the iteration. -/
def nextTap : Config := { switches with qTap := .nextTop }

/-- A quotient bit is the `top` of the iteration that follows. -/
theorem divLoop_quotient_nextTop {cfg : Config} (h : cfg.qTap = .nextTop) (g p r : Nat) (d : Bits) :
    (divLoop cfg g p r d).1 = (divTops cfg g p r d).tail := by
  induction d generalizing r with
  | nil => rfl
  | cons b d ih =>
    cases d with
    | nil => rfl
    | cons b' d =>
      have hrest := ih (divStep cfg g p r b)
      rw [divTops, List.tail_cons, divTops, divLoop]
      simp only [hrest, h, quotientCandidate]
      rfl

theorem division_nextTap (g : Nat) {p : Nat} (d : Bits) (hp : 1 ≤ p) :
    (division nextTap g p d).2 = polyMod (fromBits d) (effectivePoly g p) p ∧
      fromBits (divTops nextTap g p 0 d) = polyQuot (fromBits d) (effectivePoly g p) p := by
  obtain ⟨hmonic, hdegree⟩ := effectivePoly_monic g hp
  exact division_eq_longDiv (cfg := nextTap) (φ := id) hmonic hdegree hp rfl (fun _ => rfl)
    (fun r c hr => divStep_eq_remainderStep g c hp hr) d

/-- The first `top` is 0, so the others are the whole quotient. -/
theorem division_quotient_nextTap (g : Nat) {p : Nat} {d : Bits} (hp : 1 ≤ p) (hd : d ≠ []) :
    fromBits (division nextTap g p d).1 = polyQuot (fromBits d) (effectivePoly g p) p := by
  obtain ⟨b, d, rfl⟩ := List.exists_cons_of_ne_nil hd
  have htop : topBit 0 p = false := Nat.zero_testBit _
  rw [← (division_nextTap g (b :: d) hp).2, division, divLoop_quotient_nextTop rfl]
  simp [divTops, htop]

/-- Settles O48: the `top` bits are those of the same loop, tapped one iteration later. -/
theorem nextTopReturnsTheTrueQuotient : Obligations.NextTopReturnsTheTrueQuotient := by
  refine ⟨fun g p d hp hd => ?_, fun r g p b hp _ => ?_⟩
  · obtain ⟨hmonic, hdegree⟩ := effectivePoly_monic g hp
    have hquot := division_quotient_nextTap g hp hd
    have hrem := (division_nextTap g d hp).1
    refine ⟨hquot, divLoop_quotient_length nextTap _ _ _ _, hrem.trans (division_switches g d hp).1.symm, ?_⟩
    show clMul (fromBits (division nextTap g p d).1) _ ^^^ (division nextTap g p d).2 = _
    rw [hquot, hrem]
    exact (longDiv_spec hmonic hdegree _).1
  · have hp1 : p - 1 ≠ 0 := by omega
    show (injectBit0 (lfsrStep r g p).2 _).testBit (p - 1) = _
    rw [testBit_injectBit0, if_neg hp1, lfsrStep_out r g p (by omega)]

/-! ## The operations of the PolyDivider unit (42_poly_divider.md R88 to R91) -/

/-- Settles O39: the whole slot is written when the tests pass. -/
theorem divInitConfiguresTheSlot : Obligations.DivInitConfiguresTheSlot := by
  intro g p s hp
  rw [Completes, exec_divInit, opDivInit_switches g _ hp, answer_complete]
  rfl

/-- Settles O40: the loop's quotient and register are those of the long division. -/
theorem divDivideReturnsTheGf2Division : Obligations.DivDivideReturnsTheGf2Division := by
  intro d s hv hinv hd
  obtain ⟨hp, -, -⟩ := hinv hv
  have hquot : (division switches s.d.g s.d.p d).1 =
      toBits (polyQuot (fromBits d) (effectivePoly s.d.g s.d.p) s.d.p / 2) (d.length - 1) := by
    have hlength : (division switches s.d.g s.d.p d).1.length = d.length - 1 := divLoop_quotient_length _ _ _ _ _
    rw [← division_quotient s.d.g hp hd, ← hlength, toBits_fromBits]
  rw [Completes, exec_of_tests_pass (i := .divDivide d) (.inr hv) (by simp [operandFault, hd]), carryOut,
    answer_complete, hquot, (division_switches s.d.g d hp).1]
  rfl

theorem divQuot_completes {d : Bits} {s : State} (hv : s.d.valid = true) (hp : 1 ≤ s.d.p) (hd : d ≠ []) :
    Completes (.divQuot d) s [.nat (polyQuot (fromBits d) (effectivePoly s.d.g s.d.p) s.d.p / 2)]
      { s with d := { s.d with r := polyMod (fromBits d) (effectivePoly s.d.g s.d.p) s.d.p } } := by
  rw [Completes, exec_of_tests_pass (i := .divQuot d) (.inr hv) (by simp [operandFault, hd]), carryOut,
    answer_complete, division_quotient s.d.g hp hd, (division_switches s.d.g d hp).1]
  rfl

theorem divRem_completes {d : Bits} {s : State} (hv : s.d.valid = true) (hp : 1 ≤ s.d.p) (hd : d ≠ []) :
    Completes (.divRem d) s [.nat (polyMod (fromBits d) (effectivePoly s.d.g s.d.p) s.d.p)]
      { s with d := { s.d with r := polyMod (fromBits d) (effectivePoly s.d.g s.d.p) s.d.p } } := by
  obtain ⟨hmonic, hdegree⟩ := effectivePoly_monic s.d.g hp
  rw [Completes, exec_of_tests_pass (i := .divRem d) (.inr hv) (by simp [operandFault, hd]), carryOut,
    answer_complete, (division_switches s.d.g d hp).1, fromBits_toBits, Nat.mod_eq_of_lt (polyMod_lt hmonic hdegree _)]
  rfl

/-- Settles O41: the three operations have the same tests and the same division. -/
theorem divQuotAndDivRemReturnTheIntegers : Obligations.DivQuotAndDivRemReturnTheIntegers := by
  refine ⟨fun d s hv hinv hd => ?_, fun d s f => ?_⟩
  · obtain ⟨hp, -, -⟩ := hinv hv
    exact ⟨divQuot_completes hv hp hd, divRem_completes hv hp hd⟩
  · simp only [faults_iff]
    exact ⟨Iff.rfl, Iff.rfl⟩

end Sys2Proof.Machine

/-! ## The operations of the CRC Codec unit (43_crc_codec.md R103 to R113) -/

namespace Sys2Proof.Machine

/-- Settles O50: the whole slot is written when the test passes, with the bit-length of the generator. -/
theorem crcInitConfiguresTheSlot : Obligations.CrcInitConfiguresTheSlot := by
  intro g nitems k s hk hbit habove
  have hg : 2 ≤ g := calc
    2 = 2 ^ 1 := rfl
    _ ≤ 2 ^ k := Nat.pow_le_pow_right Nat.two_pos hk
    _ ≤ g := Nat.ge_two_pow_of_testBit hbit
  rw [Completes, exec_crcInit, opCrcInit_switches nitems _ hg, answer_complete, bitlen_of_highest_bit hbit habove]
  rfl

theorem CrcSlot.Inv.one_le_degree {c : CrcSlot} (h : c.Inv) (hv : c.valid = true) : 1 ≤ c.degree :=
  Nat.le_sub_of_add_le (h hv).2.1

/-- What the codec divides is the remainder by the effective generator (42_poly_divider.md R95). -/
theorem crcDivideRemainder_eq {c : CrcSlot} (B : Bits) (hv : c.valid = true) (hc : c.Inv) :
    crcDivideRemainder switches c B = polyMod (fromBits B) (effectivePoly c.g c.degree) c.degree :=
  (division_switches c.g B (hc.one_le_degree hv)).1

theorem fromBits_append_zeros (A : Bits) (k : Nat) : fromBits (A ++ zeros k) = fromBits A * 2 ^ k := by
  rw [fromBits_append, fromBits_zeros, zeros_length, Nat.add_zero]

/-- The codeword of a payload: its bits, and the check bits behind them. -/
def codeword (c : CrcSlot) (payload : Items) (w : Nat) : Bits :=
  flatten payload w ++ toBits (encodeRemainder switches c payload w) c.degree

theorem encodeRemainder_eq {c : CrcSlot} (payload : Items) (w : Nat) (hv : c.valid = true) (hc : c.Inv) :
    encodeRemainder switches c payload w =
      polyMod (fromBits (flatten payload w) * 2 ^ c.degree) (effectivePoly c.g c.degree) c.degree := by
  rw [encodeRemainder, crcDivideRemainder_eq _ hv hc, fromBits_append_zeros]

theorem crcEncode_completes_of_fits {payload : Items} {w : Nat} {s : State} (hv : s.c.valid = true) (hw : 1 ≤ w)
    (hl : payload.length = s.c.nitems) (hfit : ∀ v ∈ payload, v < 2 ^ w) :
    Completes (.crcEncode payload w) s
      [.bits (codeword s.c payload w)] { s with c := { s.c with r := encodeRemainder switches s.c payload w } } := by
  have hitems : someItemTooWide payload w = false := by simpa [someItemTooWide] using hfit
  rw [Completes, exec_of_tests_pass (i := .crcEncode payload w) (.inr hv)
    (by simp [operandFault, Nat.ne_of_gt hw, hl, hitems]), carryOut, answer_complete]
  rfl

/-- Settles O52: the payload bits and the remainder of the padded payload. -/
theorem crcEncodeAppendsTheRemainder : Obligations.CrcEncodeAppendsTheRemainder := by
  intro payload w s hv hc hw hl hfit
  have hencode := crcEncode_completes_of_fits hv hw hl hfit
  rwa [codeword, encodeRemainder_eq payload w hv hc] at hencode

theorem crcDecode_completes_of_length {received : Bits} {w : Nat} {s : State} (hv : s.c.valid = true) (hw : 1 ≤ w)
    (hl : received.length = s.c.nitems * w + s.c.degree) :
    Completes (.crcDecode received w) s
      [.items (unflatten received w s.c.nitems), .nat (crcDivideRemainder switches s.c received)]
      { s with c := { s.c with r := crcDivideRemainder switches s.c received } } := by
  rw [Completes, exec_crcDecode, opCrcDecode_switches hv hw hl, answer_complete]
  rfl

/-- Settles O53: the literal groups and the remainder of the whole sequence. -/
theorem crcDecodeReturnsPayloadAndSyndrome : Obligations.CrcDecodeReturnsPayloadAndSyndrome := by
  intro received w s hv hc hw hl
  have hdecode := crcDecode_completes_of_length hv hw hl
  rwa [crcDivideRemainder_eq received hv hc] at hdecode

/-! ### The round trip (43_crc_codec.md R108) -/

/-- The first group of a sequence, and the groups of what stands behind it. -/
theorem unflatten_append {A : Bits} {w : Nat} (B : Bits) (n : Nat) (hA : A.length = w) :
    unflatten (A ++ B) w (n + 1) = fromBits A :: unflatten B w n := by
  have hfirst : memRead (A ++ B) (0 * w) w = A := by rw [Nat.zero_mul, memRead, List.drop_zero, List.take_left' hA]
  have hlater : ∀ k, memRead (A ++ B) ((k + 1) * w) w = memRead B (k * w) w := fun k => by
    rw [memRead, memRead, Nat.succ_mul, Nat.add_comm, ← hA, List.drop_length_add_append]
  rw [unflatten, List.range_succ_eq_map, List.map_cons, List.map_map, hfirst]
  simp only [Function.comp_def, hlater]
  rfl

/-- The groups of a codeword are the items of its payload. -/
theorem unflatten_flatten_append {payload : Items} {w : Nat} (rest : Bits) (hfit : ∀ v ∈ payload, v < 2 ^ w) :
    unflatten (flatten payload w ++ rest) w payload.length = payload := by
  induction payload with
  | nil => rfl
  | cons v payload ih =>
    obtain ⟨hv, hfit⟩ := List.forall_mem_cons.1 hfit
    rw [flatten_cons, List.append_assoc, List.length_cons, unflatten_append _ _ (toBits_length v w), ih hfit,
      fromBits_toBits, Nat.mod_eq_of_lt hv]

theorem codeword_length (c : CrcSlot) (payload : Items) (w : Nat) :
    (codeword c payload w).length = payload.length * w + c.degree := by
  rw [codeword, List.length_append, flatten_length, toBits_length]

/-- A codeword is a multiple of the effective generator: the remainder of its check bits is that of the padded
payload. -/
theorem syndrome_codeword {c : CrcSlot} (payload : Items) (w : Nat) (hv : c.valid = true) (hc : c.Inv) :
    crcDivideRemainder switches c (codeword c payload w) = 0 := by
  obtain ⟨hmonic, hdegree⟩ := effectivePoly_monic c.g (hc.one_le_degree hv)
  have hlt := encodeRemainder_lt switches payload w hv hc
  rw [crcDivideRemainder_eq _ hv hc, codeword, fromBits_append_toBits _ hlt, polyMod_xor hmonic hdegree,
    (longDiv_of_lt hmonic hdegree hlt).2, ← encodeRemainder_eq payload w hv hc, Nat.xor_self]

theorem crcDecode_codeword_completes {payload : Items} {w : Nat} {s : State} (hv : s.c.valid = true) (hc : s.c.Inv)
    (hw : 1 ≤ w) (hl : payload.length = s.c.nitems) (hfit : ∀ v ∈ payload, v < 2 ^ w) :
    Completes (.crcDecode (codeword s.c payload w) w) s [.items payload, .nat 0]
      { s with c := { s.c with r := 0 } } := by
  have hdecode := crcDecode_completes_of_length hv hw (hl ▸ codeword_length s.c payload w)
  have hitems : unflatten (codeword s.c payload w) w s.c.nitems = payload := hl ▸ unflatten_flatten_append _ hfit
  rwa [syndrome_codeword payload w hv hc, hitems] at hdecode

/-- Settles O55: the codeword has the right length, its groups are the items and its remainder is 0; the register that
the encoding left is not read. -/
theorem decodeOfEncodeGivesThePayloadAndSyndromeZero : Obligations.DecodeOfEncodeGivesThePayloadAndSyndromeZero := by
  intro payload w s hv hc hw hl hfit
  let t := respond (.ok [.bits (codeword s.c payload w)])
    { s with c := { s.c with r := encodeRemainder switches s.c payload w } }
  have hinv : t.c.Inv := fun _ => ⟨(hc hv).1, (hc hv).2.1, encodeRemainder_lt switches payload w hv hc⟩
  refine ⟨_, t, _, crcEncode_completes_of_fits hv hw hl hfit, rfl,
    crcDecode_codeword_completes (s := t) hv hinv hw hl hfit, ?_⟩
  simp [t]

/-! ### Error sensitivity (43_crc_codec.md R109) -/

theorem bitAt_xorBits {A E : Bits} (hl : A.length = E.length) (i : Nat) :
    bitAt (xorBits A E) i = (bitAt A i ^^ bitAt E i) := by
  by_cases hi : i < E.length
  · simp [bitAt, xorBits, List.getD_eq_getElem?_getD, hl, hi]
  · simp [bitAt, xorBits, List.getD_eq_getElem?_getD, hl, hi]

theorem fromBits_xorBits {A E : Bits} (hl : A.length = E.length) :
    fromBits (xorBits A E) = fromBits A ^^^ fromBits E := by
  have hlength : (xorBits A E).length = E.length := by simp [xorBits, hl]
  refine Nat.eq_of_testBit_eq fun k => ?_
  rw [Nat.testBit_xor, testBit_fromBits, testBit_fromBits, testBit_fromBits, hlength, hl, bitAt_xorBits hl]
  cases decide (k < E.length) <;> simp

theorem crcDivideRemainder_xorBits {c : CrcSlot} {A E : Bits} (hv : c.valid = true) (hc : c.Inv)
    (hl : A.length = E.length) :
    crcDivideRemainder switches c (xorBits A E) =
      crcDivideRemainder switches c A ^^^ crcDivideRemainder switches c E := by
  obtain ⟨hmonic, hdegree⟩ := effectivePoly_monic c.g (hc.one_le_degree hv)
  simp only [crcDivideRemainder_eq _ hv hc, fromBits_xorBits hl, polyMod_xor hmonic hdegree]

/-- Settles O56: the remainder is linear, and reading a sequence turns XOR into XOR. -/
theorem syndromeIsLinear : Obligations.SyndromeIsLinear :=
  fun _ _ E hv hc hl => ⟨crcDivideRemainder_xorBits hv hc hl, crcDivideRemainder_eq E hv hc⟩

theorem bitAt_set {B : Bits} {i : Nat} (v : Bool) (hi : i < B.length) (j : Nat) :
    bitAt (B.set i v) j = if i = j then v else bitAt B j := by
  by_cases h : i = j
  · subst h
    simp [bitAt, List.getD_eq_getElem?_getD, hi]
  · simp [bitAt, List.getD_eq_getElem?_getD, h]

/-- A single inverted bit is an XOR with one power of `x`. -/
theorem fromBits_set_not {B : Bits} {i : Nat} (hi : i < B.length) :
    fromBits (B.set i (!bitAt B i)) = fromBits B ^^^ 2 ^ (B.length - 1 - i) := by
  refine Nat.eq_of_testBit_eq fun k => ?_
  rw [testBit_fromBits, List.length_set, bitAt_set _ hi, Nat.testBit_xor, testBit_fromBits, Nat.testBit_two_pow]
  by_cases hk : k < B.length
  · by_cases h : i = B.length - 1 - k
    · have hweight : B.length - 1 - i = k := by omega
      simp [hk, ← h, hweight]
    · have hweight : B.length - 1 - i ≠ k := by omega
      simp [hk, h, hweight]
  · have hweight : B.length - 1 - i ≠ k := by omega
    simp [hk, hweight]

theorem lfsrIterate_ne_zero {s n : Nat} (g t : Nat) (hn : 1 ≤ n) (hs : s < 2 ^ n) (h0 : s ≠ 0) :
    lfsrIterate g n t s ≠ 0 := by
  induction t with
  | zero => exact h0
  | succ t ih =>
    rw [lfsrIterate_succ]
    intro hstep
    have hinj := stepFin_injective g hn (a₁ := ⟨lfsrIterate g n t s, lfsrIterate_lt g t hs⟩) (a₂ := ⟨0, by positivity⟩)
      (Fin.ext (hstep.trans (lfsrStep_zero g hn).symm))
    exact ih (congrArg Fin.val hinj)

/-- No power of `x` leaves remainder 0: steps from a nonzero state never come to state 0. -/
theorem polyMod_two_pow_ne_zero (g : Nat) {n : Nat} (t : Nat) (hn : 1 ≤ n) :
    polyMod (2 ^ t) (effectivePoly g n) n ≠ 0 := by
  have h1 : 1 < 2 ^ n := Nat.one_lt_two_pow (Nat.one_le_iff_ne_zero.1 hn)
  have hiterate := lfsrIterate_eq_polyMod g t hn h1
  rw [Nat.one_mul] at hiterate
  rw [← hiterate]
  exact lfsrIterate_ne_zero g t hn h1 Nat.one_ne_zero

/-- A codeword with one bit inverted leaves the remainder of one power of `x`. -/
theorem syndrome_codeword_set_not {c : CrcSlot} (payload : Items) (w : Nat) {i : Nat} (hv : c.valid = true)
    (hc : c.Inv) (hi : i < (codeword c payload w).length) :
    crcDivideRemainder switches c ((codeword c payload w).set i (!bitAt (codeword c payload w) i)) ≠ 0 := by
  have hp := hc.one_le_degree hv
  obtain ⟨hmonic, hdegree⟩ := effectivePoly_monic c.g hp
  rw [crcDivideRemainder_eq _ hv hc, fromBits_set_not hi, polyMod_xor hmonic hdegree, ← crcDivideRemainder_eq _ hv hc,
    syndrome_codeword payload w hv hc, Nat.zero_xor]
  exact polyMod_two_pow_ne_zero c.g _ hp

/-- Settles O57: the syndrome of the codeword is 0 and that of the inverted bit, a power of `x`, is not. -/
theorem everySingleBitErrorIsDetected : Obligations.EverySingleBitErrorIsDetected := by
  intro payload w s t cw i hv hc hencode hi
  obtain ⟨hl, hr, hcw⟩ := crcEncode_completes hencode
  obtain rfl : cw = codeword s.c payload w := by rw [hcw, hr, codeword]
  have htests := ((faultOf_eq_none_iff _ _ _).1 ((completes_iff _ s).1 ⟨_, t, hencode⟩)).2
  simp only [operandFault, guard_eq_none_iff] at htests
  have hlength : ((codeword s.c payload w).set i (!bitAt (codeword s.c payload w) i)).length =
      s.c.nitems * w + s.c.degree := by rw [List.length_set, codeword_length, hl]
  refine ⟨_, _, _, crcDecode_completes_of_length hv (Nat.one_le_iff_ne_zero.2 htests.1) hlength, ?_⟩
  simpa [errorDetected] using syndrome_codeword_set_not payload w hv hc hi

/-! ### Corner cases (43_crc_codec.md R113) -/

theorem toBits_zero_left (N : Nat) : toBits 0 N = zeros N := by
  simp [toBits, zeros, List.map_const']

theorem zeros_append_zeros (a b : Nat) : zeros a ++ zeros b = zeros (a + b) :=
  List.replicate_append_replicate

/-- Items 0 are zeros. -/
theorem flatten_replicate_zero (k w : Nat) : flatten (List.replicate k 0) w = zeros (k * w) := by
  induction k with
  | zero => simp [zeros]
  | succ k ih =>
    rw [List.replicate_succ, flatten_cons, ih, toBits_zero_left, zeros_append_zeros, Nat.succ_mul, Nat.add_comm]

theorem polyMod_zero {b p : Nat} (hp : b.testBit p = true) (hb : b < 2 ^ (p + 1)) : polyMod 0 b p = 0 :=
  (longDiv_of_lt hp hb (by positivity)).2

/-- A payload of zeros has a codeword of zeros. -/
theorem codeword_replicate_zero {c : CrcSlot} (k w : Nat) (hv : c.valid = true) (hc : c.Inv) :
    codeword c (List.replicate k 0) w = zeros (k * w + c.degree) := by
  obtain ⟨hmonic, hdegree⟩ := effectivePoly_monic c.g (hc.one_le_degree hv)
  rw [codeword, encodeRemainder_eq _ w hv hc, flatten_replicate_zero, fromBits_zeros, Nat.zero_mul,
    polyMod_zero hmonic hdegree, toBits_zero_left, zeros_append_zeros]

/-- Leading zero items add nothing to the number that is divided. -/
theorem fromBits_flatten_replicate_zero_append (k : Nat) (payload : Items) (w : Nat) (B : Bits) :
    fromBits (flatten (List.replicate k 0 ++ payload) w ++ B) = fromBits (flatten payload w ++ B) := by
  rw [flatten_append, flatten_replicate_zero, List.append_assoc, fromBits_append (zeros _), fromBits_zeros,
    Nat.zero_mul, Nat.zero_add]

theorem testBit_or_one {k : Nat} (g : Nat) (hk : 1 ≤ k) : (g ||| 1).testBit k = g.testBit k := by
  obtain ⟨j, rfl⟩ : ∃ j, k = j + 1 := ⟨k - 1, by omega⟩
  rw [Nat.testBit_or]
  simp [Nat.testBit_succ]

/-- Settles O59: zeros encode to zeros, a short sequence is its own syndrome, and the division reads the middle
coefficients of the generator alone. -/
theorem codecCornerCases : Obligations.CodecCornerCases := by
  refine ⟨fun w s hv hc hw hn => ?_, fun B w s hv hc hw hn hl => ?_, fun w s hv hc hw => ?_,
    fun c payload w k hv hc => ?_, fun c B hv hc => ?_⟩
  · have hencode := crcEncode_completes_of_fits (payload := List.replicate s.c.nitems 0) hv hw (by simp)
      (by simp)
    rw [codeword_replicate_zero _ w hv hc, hn, Nat.zero_mul, Nat.zero_add] at hencode
    exact ⟨_, hencode⟩
  · have hdecode := crcDecode_completes_of_length hv hw (received := B) (by rw [hn, hl, Nat.zero_mul, Nat.zero_add])
    have hshort : crcDivideRemainder switches s.c B = fromBits B :=
      division_register_of_short s.c.g (hc.one_le_degree hv) hl.le
    rw [hshort, hn] at hdecode
    exact ⟨_, hdecode⟩
  · have hencode := crcEncode_completes_of_fits (payload := List.replicate s.c.nitems 0) hv hw (by simp)
      (by simp)
    rw [codeword_replicate_zero _ w hv hc] at hencode
    exact ⟨_, hencode⟩
  · rw [crcDivideRemainder_eq _ hv hc, crcDivideRemainder_eq _ hv hc, fromBits_flatten_replicate_zero_append]
  · exact congrArg Prod.snd
      (division_congr switches (hc.one_le_degree hv) (fun k hk _ => testBit_or_one c.g hk) B)

end Sys2Proof.Machine

/-! ## Reading back the text of an operation (30_encoding.md R58, R59) -/

namespace Sys2Proof.Machine

/-! ### Naturals and integers -/

theorem toDigits_ne_nil (b v : Nat) : Nat.toDigits b v ≠ [] := List.ne_nil_of_length_pos Nat.length_toDigits_pos

theorem isAlphanum_digitChar {k : Nat} (h : k < 16) : k.digitChar.isAlphanum = true := by
  interval_cases k <;> rfl

theorem isAlphanum_of_mem_toDigits {b v : Nat} {c : Char} (hb : 1 < b) (hb16 : b ≤ 16) (hc : c ∈ Nat.toDigits b v) :
    c.isAlphanum = true := by
  obtain ⟨k, hk, rfl⟩ := eq_digitChar_of_mem_toDigits hb v c hc
  exact isAlphanum_digitChar (by omega)

/-- A written natural is of letters and digits alone. -/
theorem isAlphanum_of_mem_writeNat {form : NumberForm} {v : Nat} {c : Char} (hc : c ∈ writeNat form v) :
    c.isAlphanum = true := by
  cases form with
  | decimal => exact isAlphanum_of_mem_toDigits (by decide) (by decide) hc
  | hexadecimal | binary =>
    simp only [writeNat, List.mem_cons] at hc
    rcases hc with rfl | rfl | hc
    · rfl
    · rfl
    · exact isAlphanum_of_mem_toDigits (by decide) (by decide) hc

theorem ne_of_isAlphanum {c d : Char} (hc : c.isAlphanum = true) (hd : d.isAlphanum = false) : c ≠ d := by
  rintro rfl
  exact Bool.false_ne_true (hd.symm.trans hc)

/-- Without a letter `x` or `b`, digits are read as decimal. -/
theorem readNat_eq_readDigits {cs : List Char} (hne : cs ≠ []) (h : ∀ c ∈ cs, c ≠ 'x' ∧ c ≠ 'b') :
    readNat cs = readDigits 10 0 cs := by
  unfold readNat
  split <;> simp_all

theorem digitChar_ne {k : Nat} (h : k < 10) : k.digitChar ≠ 'x' ∧ k.digitChar ≠ 'b' := by
  interval_cases k <;> decide

theorem readNat_writeNat (form : NumberForm) (v : Nat) : readNat (writeNat form v) = some v := by
  cases form with
  | decimal =>
    rw [writeNat, readNat_eq_readDigits (toDigits_ne_nil 10 v), readDigits_toDigits (by decide) (by decide)]
    intro c hc
    obtain ⟨k, hk, rfl⟩ := eq_digitChar_of_mem_toDigits (by decide) v c hc
    exact digitChar_ne hk
  | hexadecimal =>
    obtain ⟨c, cs, hcs⟩ := List.exists_cons_of_ne_nil (toDigits_ne_nil 16 v)
    rw [writeNat, hcs, readNat, ← hcs, readDigits_toDigits (by decide) (by decide)]
  | binary =>
    obtain ⟨c, cs, hcs⟩ := List.exists_cons_of_ne_nil (toDigits_ne_nil 2 v)
    rw [writeNat, hcs, readNat, ← hcs, readDigits_toDigits (by decide) (by decide)]

theorem writeNat_ne_nil (form : NumberForm) (v : Nat) : writeNat form v ≠ [] := by
  cases form <;> simp [writeNat]

/-- A sign is no letter or digit, so a text of these is read as a natural. -/
theorem readInt_eq_readNat {cs : List Char} (h : ∀ c ∈ cs, c.isAlphanum = true) :
    readInt cs = (readNat cs).map fun v => (v : Int) := by
  unfold readInt
  split
  · exact absurd (h '-' (by simp)) (by decide)
  · exact absurd (h '−' (by simp)) (by decide)
  · rfl

theorem readInt_writeInt (form : NumberForm) (v : Int) : readInt (writeInt form v) = some v := by
  cases v with
  | ofNat v =>
    rw [writeInt, readInt_eq_readNat fun c hc => isAlphanum_of_mem_writeNat hc, readNat_writeNat]
    rfl
  | negSucc v =>
    rw [writeInt, readInt, readNat_writeNat]
    rfl

/-! ### Pieces between commas -/

/-- A text without its spaces. -/
def squeeze (cs : List Char) : List Char := cs.filter (· ≠ ' ')

/-- Pieces with a comma between them. -/
def commaJoin : List (List Char) → List Char
  | []           => []
  | [p]          => p
  | p :: q :: ps => p ++ ',' :: commaJoin (q :: ps)

theorem squeeze_append (as bs : List Char) : squeeze (as ++ bs) = squeeze as ++ squeeze bs := List.filter_append ..

theorem squeeze_cons_space (cs : List Char) : squeeze (' ' :: cs) = squeeze cs := rfl

theorem squeeze_eq_self {cs : List Char} (h : ∀ c ∈ cs, c ≠ ' ') : squeeze cs = cs :=
  List.filter_eq_self.2 fun c hc => decide_eq_true (h c hc)

/-- The spaces that the writer puts behind commas are dropped. -/
theorem squeeze_withCommas (ps : List (List Char)) : squeeze (withCommas ps) = commaJoin (ps.map squeeze) := by
  induction ps using withCommas.induct with
  | case1 => rfl
  | case2 p => rfl
  | case3 p q ps ih =>
    rw [withCommas, squeeze_append]
    show _ ++ ',' :: squeeze (withCommas (q :: ps)) = _
    rw [ih]
    rfl

/-- A piece that is passed over whole: its commas, if it has any, stand inside its brackets. -/
def IsPiece (p : List Char) : Prop :=
  p ≠ [] ∧ ∀ cur rest, splitCommas 0 cur (p ++ rest) = splitCommas 0 (p.reverse ++ cur) rest

/-- Joined pieces are split into themselves. -/
theorem splitCommas_commaJoin {p : List Char} {ps : List (List Char)} (h : ∀ q ∈ p :: ps, IsPiece q) :
    splitCommas 0 [] (commaJoin (p :: ps)) = p :: ps := by
  induction ps generalizing p with
  | nil =>
    have hend := (h p (by simp)).2 [] []
    simpa [commaJoin, splitCommas] using hend
  | cons q ps ih =>
    obtain ⟨hp, hps⟩ := List.forall_mem_cons.1 h
    rw [commaJoin, hp.2, splitCommas_comma, ih hps]
    simp

theorem commaJoin_ne_nil {p : List Char} (ps : List (List Char)) (hp : p ≠ []) : commaJoin (p :: ps) ≠ [] := by
  cases ps <;> simp [commaJoin, hp]

theorem commaList_commaJoin {ps : List (List Char)} (h : ∀ q ∈ ps, IsPiece q) : commaList (commaJoin ps) = ps := by
  cases ps with
  | nil => rfl
  | cons p ps =>
    have hne := commaJoin_ne_nil ps (h p (by simp)).1
    rw [commaList, if_neg (by simpa using hne), splitCommas_commaJoin h]

/-! ### Operands -/

theorem isAlphanum_or_minus_of_mem_writeInt {form : NumberForm} {v : Int} {c : Char} (hc : c ∈ writeInt form v) :
    c = '-' ∨ c.isAlphanum = true := by
  cases v with
  | ofNat v => exact .inr (isAlphanum_of_mem_writeNat hc)
  | negSucc v => exact (List.mem_cons.1 hc).imp_right isAlphanum_of_mem_writeNat

theorem mem_withCommas {c : Char} {ps : List (List Char)} (hc : c ∈ withCommas ps) :
    c = ',' ∨ c = ' ' ∨ ∃ p ∈ ps, c ∈ p := by
  induction ps using withCommas.induct with
  | case1 => simp [withCommas] at hc
  | case2 p => exact .inr (.inr ⟨p, by simp, hc⟩)
  | case3 p q ps ih =>
    simp only [withCommas, List.mem_append, List.mem_cons] at hc
    rcases hc with hc | hc | hc | hc
    · exact .inr (.inr ⟨p, by simp, hc⟩)
    · exact .inl hc
    · exact .inr (.inl hc)
    · exact (ih hc).imp_right (.imp_right fun ⟨p', hp', hcp⟩ => ⟨p', List.mem_cons_of_mem p hp', hcp⟩)

theorem mem_commaJoin {c : Char} {ps : List (List Char)} (hc : c ∈ commaJoin ps) : c = ',' ∨ ∃ p ∈ ps, c ∈ p := by
  induction ps using commaJoin.induct with
  | case1 => simp [commaJoin] at hc
  | case2 p => exact .inr ⟨p, by simp, hc⟩
  | case3 p q ps ih =>
    simp only [commaJoin, List.mem_append, List.mem_cons] at hc
    rcases hc with hc | hc | hc
    · exact .inr ⟨p, by simp, hc⟩
    · exact .inl hc
    · exact (ih hc).imp_right fun ⟨p', hp', hcp⟩ => ⟨p', List.mem_cons_of_mem p hp', hcp⟩

/-- A number is a piece, because it has no comma and no bracket. -/
theorem isPiece_of_isAlphanum_or_minus {p : List Char} (hne : p ≠ [])
    (h : ∀ c ∈ p, c = '-' ∨ c.isAlphanum = true) : IsPiece p := by
  refine ⟨hne, splitCommas_plain (fun c hc => ?_) 0⟩
  rcases h c hc with rfl | hc
  · decide
  · exact ⟨ne_of_isAlphanum hc rfl, ne_of_isAlphanum hc rfl, ne_of_isAlphanum hc rfl⟩

theorem isPiece_writeNat (form : NumberForm) (v : Nat) : IsPiece (writeNat form v) :=
  isPiece_of_isAlphanum_or_minus (writeNat_ne_nil form v) fun _ hc => .inr (isAlphanum_of_mem_writeNat hc)

theorem writeInt_ne_nil (form : NumberForm) (v : Int) : writeInt form v ≠ [] := by
  cases v with
  | ofNat v => exact writeNat_ne_nil form v
  | negSucc v => exact List.cons_ne_nil _ _

/-- An operand as it stands in a text without spaces. -/
def squeezedOperand (form : NumberForm) : AsmOperand → List Char
  | .num v   => writeInt form v
  | .list vs => '[' :: commaJoin (vs.map (writeNat form)) ++ [']']

theorem squeeze_writeOperand (form : NumberForm) (op : AsmOperand) :
    squeeze (writeOperand form op) = squeezedOperand form op := by
  cases op with
  | num v =>
    refine squeeze_eq_self fun c hc => ?_
    rcases isAlphanum_or_minus_of_mem_writeInt hc with rfl | hc
    · decide
    · exact ne_of_isAlphanum hc rfl
  | list vs =>
    have hmap : (vs.map (writeNat form)).map squeeze = vs.map (writeNat form) := by
      rw [List.map_map]
      exact List.map_congr_left fun v _ =>
        squeeze_eq_self fun c hc => ne_of_isAlphanum (isAlphanum_of_mem_writeNat hc) rfl
    show squeeze ('[' :: withCommas (vs.map (writeNat form)) ++ [']']) = _
    rw [squeeze_append, squeezedOperand, ← hmap, ← squeeze_withCommas, hmap]
    rfl

theorem isPiece_squeezedOperand (form : NumberForm) (op : AsmOperand) : IsPiece (squeezedOperand form op) := by
  cases op with
  | num v =>
    exact isPiece_of_isAlphanum_or_minus (writeInt_ne_nil form v) fun _ hc => isAlphanum_or_minus_of_mem_writeInt hc
  | list vs =>
    have hplain : ∀ c ∈ commaJoin (vs.map (writeNat form)), c ≠ '[' ∧ c ≠ ']' := by
      intro c hc
      rcases mem_commaJoin hc with rfl | ⟨p, hp, hc⟩
      · decide
      · obtain ⟨v, -, rfl⟩ := List.mem_map.1 hp
        have halnum := isAlphanum_of_mem_writeNat hc
        exact ⟨ne_of_isAlphanum halnum rfl, ne_of_isAlphanum halnum rfl⟩
    refine ⟨List.cons_ne_nil _ _, fun cur rest => ?_⟩
    have hbracketed := splitCommas_bracketed hplain cur rest
    simpa [squeezedOperand] using hbracketed

theorem mapM_readNat_writeNat (form : NumberForm) (vs : List Nat) :
    (vs.map (writeNat form)).mapM readNat = some vs := by
  induction vs with
  | nil => rfl
  | cons v vs ih => simp [List.mapM_cons, readNat_writeNat, ih]

/-- A number does not begin with a bracket. -/
theorem readOperand_writeInt (form : NumberForm) (v : Int) : readOperand (writeInt form v) = some (.num v) := by
  unfold readOperand
  split
  · rename_i hbracket
    rcases isAlphanum_or_minus_of_mem_writeInt (form := form) (v := v) (c := '[') (by simp [hbracket]) with h | h
    · exact absurd h (by decide)
    · exact absurd h (by decide)
  · rw [readInt_writeInt]
    rfl

theorem readOperand_squeezedOperand (form : NumberForm) (op : AsmOperand) :
    readOperand (squeezedOperand form op) = some op := by
  cases op with
  | num v => exact readOperand_writeInt form v
  | list vs =>
    have hpieces : ∀ p ∈ vs.map (writeNat form), IsPiece p := by
      intro p hp
      obtain ⟨v, -, rfl⟩ := List.mem_map.1 hp
      exact isPiece_writeNat form v
    rw [squeezedOperand, List.cons_append, readOperand, if_pos List.getLast?_concat, List.dropLast_concat,
      commaList_commaJoin hpieces, mapM_readNat_writeNat]
    rfl

/-- The operands of a line, without spaces, read back as they are. -/
theorem mapM_readOperand_commaJoin (form : NumberForm) (ops : List AsmOperand) :
    (commaList (commaJoin (ops.map (squeezedOperand form)))).mapM readOperand = some ops := by
  have hpieces : ∀ p ∈ ops.map (squeezedOperand form), IsPiece p := by
    intro p hp
    obtain ⟨op, -, rfl⟩ := List.mem_map.1 hp
    exact isPiece_squeezedOperand form op
  rw [commaList_commaJoin hpieces]
  clear hpieces
  induction ops with
  | nil => rfl
  | cons op ops ih => simp [List.mapM_cons, readOperand_squeezedOperand, ih]

/-! ### The line -/

/-- The operands' part of a line. -/
def writtenArguments (form : NumberForm) (ops : List AsmOperand) : List Char :=
  if ops.isEmpty then [] else ' ' :: withCommas (ops.map (writeOperand form))

theorem squeeze_writtenArguments (form : NumberForm) (ops : List AsmOperand) :
    squeeze (writtenArguments form ops) = commaJoin (ops.map (squeezedOperand form)) := by
  cases ops with
  | nil => rfl
  | cons op ops =>
    show squeeze (' ' :: withCommas ((op :: ops).map (writeOperand form))) = _
    rw [squeeze_cons_space, squeeze_withCommas, List.map_map]
    exact congrArg commaJoin (List.map_congr_left fun o _ => squeeze_writeOperand form o)

theorem ne_gt_of_mem_writeOperand {form : NumberForm} {op : AsmOperand} {c : Char} (hc : c ∈ writeOperand form op) :
    c ≠ '>' := by
  cases op with
  | num v =>
    rcases isAlphanum_or_minus_of_mem_writeInt hc with rfl | hc
    · decide
    · exact ne_of_isAlphanum hc rfl
  | list vs =>
    simp only [writeOperand, List.mem_append, List.mem_cons, List.not_mem_nil, or_false] at hc
    rcases hc with (rfl | hc) | rfl
    · decide
    · rcases mem_withCommas hc with rfl | rfl | ⟨p, hp, hc⟩
      · decide
      · decide
      · obtain ⟨v, -, rfl⟩ := List.mem_map.1 hp
        exact ne_of_isAlphanum (isAlphanum_of_mem_writeNat hc) rfl
    · decide

theorem ne_gt_of_mem_writtenArguments {form : NumberForm} {ops : List AsmOperand} {c : Char}
    (hc : c ∈ writtenArguments form ops) : c ≠ '>' := by
  cases ops with
  | nil => simp [writtenArguments] at hc
  | cons op ops =>
    rcases List.mem_cons.1 (show c ∈ ' ' :: withCommas ((op :: ops).map (writeOperand form)) from hc) with rfl | hc
    · decide
    · rcases mem_withCommas hc with rfl | rfl | ⟨p, hp, hc⟩
      · decide
      · decide
      · obtain ⟨o, -, rfl⟩ := List.mem_map.1 hp
        exact ne_gt_of_mem_writeOperand hc

/-- A text is empty or begins with a space. -/
def StartsBlank (cs : List Char) : Prop := cs = [] ∨ ∃ cs', cs = ' ' :: cs'

/-- No arrow begins in a text that has no `>` and is followed by none. -/
theorem beforeArrow_append {cs rest : List Char} (hcs : ∀ c ∈ cs, c ≠ '>') (hrest : StartsBlank rest) :
    beforeArrow (cs ++ rest) = cs ++ beforeArrow rest := by
  induction cs with
  | nil => rfl
  | cons c cs ih =>
    obtain ⟨-, hcs⟩ := List.forall_mem_cons.1 hcs
    have hnext : ∀ ds, cs ++ rest ≠ '>' :: ds := by
      intro ds h
      cases cs with
      | nil => rcases hrest with rfl | ⟨_, rfl⟩ <;> simp at h
      | cons d cs =>
        obtain rfl : d = '>' := (List.cons.inj h).1
        exact hcs '>' (by simp) rfl
    rw [List.cons_append, beforeArrow.eq_2 _ _ fun ds _ h => hnext ds h, ih hcs, List.cons_append]

/-- Of the result part nothing but a space is kept. -/
theorem beforeArrow_resultPart {tail : List Char} (h : IsResultPart tail) :
    beforeArrow tail = [] ∨ beforeArrow tail = [' '] := by
  rcases h with rfl | ⟨names, rfl⟩
  · exact .inl rfl
  · exact .inr rfl

/-- A mnemonic: a word without space and arrow. -/
def IsWord (m : String) : Prop := m.toList ≠ [] ∧ ∀ c ∈ m.toList, c ≠ ' ' ∧ c ≠ '>'

/-- A line is split behind its first word. -/
theorem takeWhile_dropWhile_word {cs rest : List Char} (hcs : ∀ c ∈ cs, c ≠ ' ') (hrest : StartsBlank rest) :
    (cs ++ rest).takeWhile (· ≠ ' ') = cs ∧ (cs ++ rest).dropWhile (· ≠ ' ') = rest := by
  have hall : ∀ c ∈ cs, decide (c ≠ ' ') = true := fun c hc => decide_eq_true (hcs c hc)
  rw [List.takeWhile_append_of_pos hall, List.dropWhile_append_of_pos hall]
  rcases hrest with rfl | ⟨_, rfl⟩ <;> simp

/-- The front of a line is its mnemonic, so no space is dropped there. -/
theorem dropWhile_word_append {cs rest : List Char} (hne : cs ≠ []) (hcs : ∀ c ∈ cs, c ≠ ' ') :
    (cs ++ rest).dropWhile (· = ' ') = cs ++ rest := by
  obtain ⟨c, cs, rfl⟩ := List.exists_cons_of_ne_nil hne
  simp [hcs c (by simp)]

theorem startsBlank_writtenArguments_append (form : NumberForm) (ops : List AsmOperand) {rest : List Char}
    (hrest : StartsBlank rest) : StartsBlank (writtenArguments form ops ++ rest) := by
  cases ops with
  | nil => exact hrest
  | cons op ops => exact .inr ⟨_, rfl⟩

/-- THE TEXT OF AN OPERATION reads as its mnemonic and its operands, whatever they are. -/
theorem assemble_writeLine {m : String} (form : NumberForm) (ops : List AsmOperand) {tail : List Char} (hm : IsWord m)
    (htail : IsResultPart tail) :
    assemble (String.ofList (writeLine form m ops ++ tail)) = assembleOperands m ops := by
  obtain ⟨hne, hword⟩ := hm
  have hspace : ∀ c ∈ m.toList, c ≠ ' ' := fun c hc => (hword c hc).1
  have hgt : ∀ c ∈ m.toList ++ writtenArguments form ops, c ≠ '>' := fun c hc =>
    (List.mem_append.1 hc).elim (fun hc => (hword c hc).2) ne_gt_of_mem_writtenArguments
  have hblank : StartsBlank (beforeArrow tail) ∧ squeeze (beforeArrow tail) = [] := by
    rcases beforeArrow_resultPart htail with h | h <;> rw [h]
    · exact ⟨.inl rfl, rfl⟩
    · exact ⟨.inr ⟨[], rfl⟩, rfl⟩
  have htail' : StartsBlank tail := htail.imp_right fun ⟨names, h⟩ => ⟨_, h⟩
  obtain ⟨htake, hdrop⟩ :=
    takeWhile_dropWhile_word hspace (startsBlank_writtenArguments_append form ops hblank.1)
  have hbody : (beforeArrow (writeLine form m ops ++ tail)).dropWhile (· = ' ') =
      m.toList ++ (writtenArguments form ops ++ beforeArrow tail) := by
    show (beforeArrow (m.toList ++ writtenArguments form ops ++ tail)).dropWhile (· = ' ') = _
    rw [beforeArrow_append hgt htail', List.append_assoc, dropWhile_word_append hne hspace]
  have hrest : (writtenArguments form ops ++ beforeArrow tail).filter (· ≠ ' ') =
      commaJoin (ops.map (squeezedOperand form)) := by
    show squeeze _ = _
    rw [squeeze_append, hblank.2, List.append_nil, squeeze_writtenArguments]
  rw [assemble, String.toList_ofList, assembleChars]
  simp only [hbody, htake, hdrop, hrest, mapM_readOperand_commaJoin, String.ofList_toList, Option.bind_some]

theorem asBits_map_toNat (B : Bits) : asBits (B.map Bool.toNat) = some B := by
  induction B with
  | nil => rfl
  | cons b B ih => cases b <;> simp [asBits, ih]

/-- The written mnemonic and operands of an operation are those of it alone. -/
theorem assembleOperands_written (i : Instr) : assembleOperands (writtenMnemonic i) (writtenOperands i) = some i := by
  cases i with
  | lfsrStep stateFlag => cases stateFlag <;> rfl
  | _ => simp [assembleOperands, writtenMnemonic, Instr.mnemonic, writtenOperands, asNat, asBits_map_toNat]


theorem isWord_writtenMnemonic (i : Instr) : IsWord (writtenMnemonic i) := by
  cases i with
  | lfsrStep stateFlag => cases stateFlag <;> simp [IsWord, writtenMnemonic, Instr.mnemonic]
  | _ => simp [IsWord, writtenMnemonic, Instr.mnemonic]

/-- Settles O4: a written line reads as its mnemonic and operands, and these stand for the operation. -/
theorem writtenFormAssemblesBack : Obligations.WrittenFormAssemblesBack := by
  refine ⟨readNat_writeNat, fun i form tail htail => ?_,
    fun form tail htail => ⟨fun g n => ?_, fun v => ?_, fun B => ?_, ?_⟩⟩
  · rw [assemble_writeLine form _ (isWord_writtenMnemonic i) htail, assembleOperands_written]
  · exact assemble_writeLine form _ (isWord_writtenMnemonic (.lfsrInit g n 1)) htail
  · exact assemble_writeLine form _ (isWord_writtenMnemonic (.crcEncode v 8)) htail
  · refine (assemble_writeLine form _ (isWord_writtenMnemonic (.crcDecode B 8)) htail).trans ?_
    simp [assembleOperands, writtenMnemonic, Instr.mnemonic, asBits_map_toNat]
  · exact assemble_writeLine form _ (isWord_writtenMnemonic (.lfsrStep true)) htail

end Sys2Proof.Machine
